-- ==== Sys2Proof/Word.lean ====
section
/-! DEFINITION. The plain data the engine handles: bytes, code words, command words, and the tree. -/

namespace Sys2Proof

/-- One byte, an unsigned value 0 to 255 (00_scope.md R2, R12). -/
abbrev Byte := BitVec 8

/-- A command word, 16 bits (30_encoding.md R80). -/
abbrev CmdWord := BitVec 16

/-- A code word: its bits, the edge leaving the Root first; `false` is a left edge, `true` a right
edge (20_memory.md R67). -/
abbrev Bits := List Bool

/-- The tree type (10_state.md R20). A weight is an unsigned W-bit number, held as the natural number
it stands for because the builder's sums are exact (40_tree_builder.md R128, Log 4). -/
inductive Node where
  /-- one encodable byte value and its frequency -/
  | leaf (sym : Byte) (weight : Nat)
  /-- two children and the sum of their weights -/
  | internal (left right : Node) (weight : Nat)
  /-- the top-of-tree marker: two children, no weight -/
  | root (left right : Node)
  deriving DecidableEq, Repr

/-- What the engine decodes: a command word written to CMD, or a byte of IN in a tag position, with
whether that position is the first of the body (30_encoding.md R80, R86, R92). -/
inductive CodeUnit where
  | word (w : CmdWord)
  | tag (first : Bool) (b : Byte)
  deriving DecidableEq, Repr

end Sys2Proof
end

