-- ==== Sys2Proof/Config.lean ====
section
/-! DEFINITION. What an implementation fixes (00_scope.md R7) and the one free value. The parameters are
plain data, so that a claim about every state is a claim about every choice of them (Log 1). -/

namespace Sys2Proof

/-- The OPEN parameters of the model; `none` stands for `unbounded` (00_scope.md R7). -/
structure Config where
  /-- WEIGHT_BITS, written W -/
  weightBits : Nat
  /-- CAND_CAPACITY -/
  candCapacity : Option Nat
  /-- NODE_CAPACITY -/
  nodeCapacity : Option Nat
  deriving DecidableEq, Repr

/-- The recommended values: W = 64, CAND_CAPACITY = 256, NODE_CAPACITY = 511 (00_scope.md R7). -/
def Config.recommended : Config :=
  { weightBits := 64, candCapacity := some 256, nodeCapacity := some 511 }

/-- The parameter choices the spec admits: W at least 1 and, when both capacities are finite,
NODE_CAPACITY ≥ max(3, 2·CAND_CAPACITY − 1) (00_scope.md R7). Any other choice is refused
(93_implementation_defined.md U6). -/
def Config.valid (c : Config) : Bool :=
  decide (1 ≤ c.weightBits) &&
    match c.candCapacity, c.nodeCapacity with
    | some k, some n => decide (max 3 (2 * k - 1) ≤ n)
    | _, _ => true

/-- CODE_MAX_BITS, floor((NODE_CAPACITY − 1) / 2); `none` when NODE_CAPACITY is unbounded
(00_scope.md R7). The rule calls it the longest code word DERIVE can produce; with CAND_CAPACITY
unbounded and NODE_CAPACITY finite DERIVE can produce a longer one, and the model keeps the rule's
formula (DESIGN CHOICE, Log 21). -/
def Config.codeMaxBits (c : Config) : Option Nat :=
  c.nodeCapacity.map fun n => (n - 1) / 2

/-- FREE VALUE: what a Root's weight would read as. "It is not defined on a Root and no rule asks it of
one" (00_scope.md R14). Nothing constrains it (Log 5). -/
opaque Config.rootWeight : Node → Node → Nat

end Sys2Proof
end

