-- ==== Sys2Proof/Syntax.lean ====
section
/-! DEFINITION. The instructions: one constructor per row of spec/opcode_table.json, the seven command
rows and the four wire-tag rows. -/

namespace Sys2Proof

/-- Every row of the opcode table. A command is a word written to CMD (30_encoding.md R82, R83); a
wire tag is a byte read from IN where a DESERIALIZE waits for a tag (30_encoding.md R86, R92). -/
inductive Instr where
  /-- CLEAR, 0x0001 (40_tree_builder.md R110) -/
  | clear
  /-- LOAD_LEAF, OPC 0x02, SYM the leaf's symbol (R111) -/
  | loadLeaf (sym : Byte)
  /-- BUILD, 0x0003 (R116) -/
  | build
  /-- DERIVE, 0x0004 (41_conversion_map.md R140) -/
  | derive
  /-- SERIALIZE, 0x0005 (42_codec_serialize.md R160) -/
  | serialize
  /-- DESERIALIZE, 0x0006 (43_codec_deserialize.md R175) -/
  | deserialize
  /-- ILLEGAL: the word itself, one that no row above matches (60_exceptions.md R217) -/
  | illegal (w : CmdWord)
  /-- TAG_ROOT, 0xff in the first tag position (30_encoding.md R88) -/
  | tagRoot
  /-- TAG_INTERNAL, 0x00 in a later tag position (R89) -/
  | tagInternal
  /-- TAG_LEAF, 0x01 in a later tag position; the symbol byte follows it in IN (R91) -/
  | tagLeaf
  /-- TAG_INVALID: the byte, and whether it stood in the first tag position (R92) -/
  | tagInvalid (first : Bool) (b : Byte)
  deriving DecidableEq, Repr

end Sys2Proof
end

