-- ==== Sys2Proof/Machine/State.lean ====
section
/-! DEFINITION. All the state the spec gives the engine (10_state.md), the streams and the host's
pending actions, as plain data; what can stop a step; the state after reset. -/

namespace Sys2Proof.Machine

/-- The status codes (60_exceptions.md R211). Codes 10 to 15 are never produced. -/
inductive Code where
  | ok
  | emptyFrequencyTable
  | unexpectedEndOfInput
  | badHeaderSignature
  | badFooterSignature
  | invalidNodeTag
  | noTree
  | capacityExceeded
  | weightOverflow
  | illegalCommand
  deriving DecidableEq, Repr

/-- The kind of a parse-stack frame (43_codec_deserialize.md R196). -/
inductive FrameKind where
  | root
  | internal
  deriving DecidableEq, Repr

/-- A Root or Internal whose tag has been read and whose children are not both complete (R196). `have_left`
is `left.isSome`. -/
structure Frame where
  kind : FrameKind
  left : Option Node
  deriving DecidableEq, Repr

/-- The states of the DESERIALIZE machine, each with what it holds (43_codec_deserialize.md R195 to R197).
Stacks are written top first. -/
inductive Phase where
  /-- IDLE: no command running -/
  | idle
  /-- HDR: the header bytes collected so far -/
  | hdr (buf : List Byte)
  /-- TAG: the next byte is a tag -/
  | tag (stack : List Frame)
  /-- SYM: the next byte is a leaf's symbol; the stack is not empty here -/
  | sym (top : Frame) (below : List Frame)
  /-- FTR: the finished tree and the footer bytes collected so far -/
  | ftr (t : Node) (buf : List Byte)
  deriving DecidableEq, Repr

/-- The transient state of one DESERIALIZE (10_state.md R39): the phase, the bytes this command has
consumed and the nodes made so far (43_codec_deserialize.md R175). -/
structure Parse where
  phase : Phase
  off : Nat
  count : Nat
  deriving DecidableEq, Repr

/-- No command running. -/
def Parse.idle : Parse := { phase := .idle, off := 0, count := 0 }

/-- What the host may do between commands (70_reset_and_hazards.md R252). A write to register 0 issues
the command word. -/
inductive HostAct where
  | write (reg val : Nat)
  | read (reg : Nat)
  | replaceIn (bs : List Byte)
  | extendIn (bs : List Byte)
  | drainOut (n : Nat)
  | replaceOut (bs : List Byte)
  | reset
  deriving DecidableEq, Repr

/-- The machine. Field by field with its rule: INVENTORY.md, State. -/
structure State where
  /-- the model's parameters, which no step changes (00_scope.md R7, Log 1) -/
  cfg : Config
  /-- CAND, the candidate list, position 0 first (10_state.md R24) -/
  cand : List Node
  /-- TREE (R25); TREE_VALID is 1 exactly when it is `some` -/
  tree : Option Node
  /-- MAP (R26): the present entries in strictly rising symbol order -/
  map : List (Byte × Bits)
  /-- MAP_VALID (R29) -/
  mapValid : Bool
  /-- STATUS.CODE (R31) -/
  code : Code
  /-- ERR_OFFSET (R34) -/
  errOffset : Nat
  /-- WEIGHT (R35) -/
  weight : Nat
  /-- MAP_SYM (R35) -/
  mapSym : Byte
  /-- IN, the bytes not yet consumed (R41) -/
  inp : List Byte
  /-- OUT, the bytes produced so far (R41) -/
  out : List Byte
  /-- the transient state of a running DESERIALIZE; BUSY is 1 exactly when its phase is not idle -/
  parse : Parse
  /-- the host's pending actions, oldest first (70_reset_and_hazards.md R252, Log 2) -/
  host : List HostAct
  /-- the code of every command of the run, oldest first (70_reset_and_hazards.md R259, Log 10) -/
  codes : List Code
  deriving DecidableEq, Repr

/-- Why a step stops. The hardware has no fault (60_exceptions.md R227). -/
inductive Fault where
  /-- Raised by the meanings of the four wire tags when `exec` is given one while no DESERIALIZE waits
  for a tag. The hardware has no such event and `step` never makes one. Safe (Log 11). -/
  | tagOutsideBody
  deriving DecidableEq, Repr

/-- Why an instruction has no meaning. -/
inductive Refusal where
  /-- Raised by an arm of `exec` whose instruction has no meaning yet; no arm does. Safe. -/
  | notModelled (mnemonic : String)
  /-- Raised by `step` when the parameters are a choice the spec says to refuse
  (93_implementation_defined.md U6). Safe (Log 16). -/
  | configurationRefused
  deriving DecidableEq, Repr

/-- What the engine does next: it is done with a whole step, or it has an instruction to run. -/
inductive Fetched where
  | done (s : State)
  | run (i : Instr) (s : State)
  deriving DecidableEq, Repr

/-- A position in IN during a parse: the bytes left, the bytes consumed, the nodes made
(43_codec_deserialize.md R181). -/
structure Cursor where
  inp : List Byte
  off : Nat
  count : Nat
  deriving DecidableEq, Repr

/-- A failed read of a container: the code, ERR_OFFSET, and what is left in IN
(43_codec_deserialize.md R192). -/
structure ReadError where
  code : Code
  offset : Nat
  inp : List Byte
  deriving DecidableEq, Repr

/-- The state after reset (10_state.md R42), at the recommended parameters, with both streams empty and
nothing pending (Log 1, Log 2, Log 9, Log 10). -/
def State.reset : State :=
  { cfg := Config.recommended
    cand := []
    tree := none
    map := []
    mapValid := false
    code := .ok
    errOffset := 0
    weight := 0
    mapSym := 0#8
    inp := []
    out := []
    parse := Parse.idle
    host := []
    codes := [] }

end Sys2Proof.Machine
end

