-- ==== Sys2Proof/Machine/Ops.lean ====
section
/-! DEFINITION. The shared operations: the streams, the MAP table, dropping a tree, ending a command with
`done` or `fail`, which is this hardware's whole form of taking and leaving an error
(60_exceptions.md R214, R215), and reset. -/

namespace Sys2Proof.Machine

/-! ### The streams (20_memory.md R60 to R65) -/

/-- `InRead()` (R62): the next byte of IN, consumed and counted; `none` is EOS, which changes nothing. -/
def inRead (s : State) : Option (Byte × State) :=
  match s.inp with
  | [] => none
  | b :: rest => some (b, { s with inp := rest, parse := { s.parse with off := s.parse.off + 1 } })

/-- `InReadN(n)` on the bytes of IN (R63): the first `n` bytes and what is left; `none` is EOS, after
which nothing is left. -/
def inReadN (n : Nat) (inp : List Byte) : Option (List Byte × List Byte) :=
  if n ≤ inp.length then some (inp.take n, inp.drop n) else none

/-- `OutWrite(bs)` (R65): the bytes are appended to OUT in order. -/
def outWrite (bs : List Byte) (s : State) : State := { s with out := s.out ++ bs }

/-! ### The MAP table (10_state.md R26): a list of present entries, symbols strictly rising -/

/-- `MAP[sym]`. -/
def mapGet : List (Byte × Bits) → Byte → Option Bits
  | [], _ => none
  | (k, c) :: m, sym => if k = sym then some c else mapGet m sym

/-- `MAP[sym] <- some(c)`. -/
def mapSet : List (Byte × Bits) → Byte → Bits → List (Byte × Bits)
  | [], sym, c => [(sym, c)]
  | (k, d) :: m, sym, c =>
    if sym.toNat < k.toNat then (sym, c) :: (k, d) :: m
    else if sym = k then (sym, c) :: m
    else (k, d) :: mapSet m sym c

/-- The canonical form: symbols strictly rising. An absent symbol reads `none`. -/
abbrev mapWf (m : List (Byte × Bits)) : Prop := m.Pairwise fun a b => a.1.toNat < b.1.toNat

/-! ### Beginning and ending a command -/

/-- TREE <- none and every MAP entry <- none, as BUILD, DESERIALIZE and CLEAR do first
(92_eei_decisions.md D18). -/
def dropTree (s : State) : State := { s with tree := none, map := [], mapValid := false }

/-- The end of a command (60_exceptions.md R215): STATUS.CODE <- `c`, BUSY <- 0, the command is over; the
run's record gains the code (70_reset_and_hazards.md R259, Log 10). `done` is `finish .ok`, and
`fail E` without an offset is `finish E`. -/
def finish (c : Code) (s : State) : State :=
  { s with code := c, parse := Parse.idle, codes := s.codes ++ [c] }

/-- `fail E(offset)` in a DESERIALIZE (R215): ERR_OFFSET <- `offset`, then the command is over. -/
def failAt (c : Code) (offset : Nat) (s : State) : State := finish c { s with errOffset := offset }

/-- The command goes on in another phase of the DESERIALIZE machine (43_codec_deserialize.md R197). -/
def goPhase (p : Phase) (s : State) : State := { s with parse := { s.parse with phase := p } }

/-! ### Reset (10_state.md R42, 70_reset_and_hazards.md R240, R241) -/

/-- Asserting the reset input: every piece of engine state goes to its reset value; the streams, the
parameters, the host's remaining actions and the run's record are not engine state and stay. -/
def assertReset (s : State) : State :=
  { State.reset with cfg := s.cfg, inp := s.inp, out := s.out, host := s.host, codes := s.codes }

end Sys2Proof.Machine
end

