-- ==== Sys2Proof/Machine/ConversionMap.lean ====
section
/-! DEFINITION. The ConversionMap deriver: DERIVE (41_conversion_map.md R140 to R144). -/

namespace Sys2Proof.Machine

/-- `walk(n, p)` (R141): left before right, a leaf records its path; a later leaf of the same symbol
overwrites (R142). -/
def walk : Node → Bits → List (Byte × Bits) → List (Byte × Bits)
  | .leaf sym _, p, m => mapSet m sym p
  | .internal l r _, p, m => walk r (p ++ [true]) (walk l (p ++ [false]) m)
  | .root l r, p, m => walk r (p ++ [true]) (walk l (p ++ [false]) m)

/-- The table of a tree: the walk from the Root over an empty MAP. -/
def codeTable (t : Node) : List (Byte × Bits) := walk t [] []

/-- DERIVE (R140): MAP is cleared first; the tree stays in place (R143). -/
def execDerive (s : State) : Host.Outcome State Fault Refusal :=
  match s.tree with
  | none => .next (finish .noTree { s with map := [], mapValid := false })
  | some t => .next (finish .ok { s with map := codeTable t, mapValid := true })

end Sys2Proof.Machine
end

