-- ==== Sys2Proof/Machine/Illegal.lean ====
section
/-! DEFINITION. The command ILLEGAL (60_exceptions.md R217). -/

namespace Sys2Proof.Machine

/-- ILLEGAL: STATUS.CODE <- IllegalCommand, whatever the word; nothing else changes. -/
def execIllegal (_w : CmdWord) (s : State) : Host.Outcome State Fault Refusal :=
  .next (finish .illegalCommand s)

end Sys2Proof.Machine
end

