-- ==== Sys2Proof/Decode.lean ====
section
/-! DEFINITION. The two decoders, total on every command word and on every tag byte in either position,
and the encoder written from the same tables (30_encoding.md R82, R83, R92; opcode_table.json). -/

namespace Sys2Proof

/-- TAG_ROOT = 255 (30_encoding.md R86). -/
def tagRootByte : Byte := 0xff#8
/-- TAG_INTERNAL = 0 (30_encoding.md R86). -/
def tagInternalByte : Byte := 0x00#8
/-- TAG_LEAF = 1 (30_encoding.md R86). -/
def tagLeafByte : Byte := 0x01#8

/-- The opcode map: a word selects a command when `word & mask = match`; every word that selects none
is illegal (30_encoding.md R82, R83). SYM is word[15:8] as it stands (R81). -/
def decodeCommand (w : CmdWord) : Instr :=
  if w &&& 0xffff#16 = 0x0001#16 then .clear
  else if w &&& 0x00ff#16 = 0x0002#16 then .loadLeaf (w.extractLsb' 8 8)
  else if w &&& 0xffff#16 = 0x0003#16 then .build
  else if w &&& 0xffff#16 = 0x0004#16 then .derive
  else if w &&& 0xffff#16 = 0x0005#16 then .serialize
  else if w &&& 0xffff#16 = 0x0006#16 then .deserialize
  else .illegal w

/-- A byte in a tag position: 255 is valid in the first position only, 0 and 1 in every later one,
any other byte in none (30_encoding.md R92, 43_codec_deserialize.md R183). -/
def decodeTag (first : Bool) (b : Byte) : Instr :=
  if first then
    if b = tagRootByte then .tagRoot else .tagInvalid true b
  else if b = tagInternalByte then .tagInternal
  else if b = tagLeafByte then .tagLeaf
  else .tagInvalid false b

/-- The instruction a unit of code stands for. -/
def decodeUnit : CodeUnit → Instr
  | .word w => decodeCommand w
  | .tag first b => decodeTag first b

/-- The command word with opcode `opc` and symbol operand `sym` (30_encoding.md R80). -/
def commandWord (sym opc : Byte) : CmdWord := sym ++ opc

/-- The unit of code an instruction is written as (30_encoding.md R82, R86). -/
def encode : Instr → CodeUnit
  | .clear => .word (commandWord 0x00#8 0x01#8)
  | .loadLeaf sym => .word (commandWord sym 0x02#8)
  | .build => .word (commandWord 0x00#8 0x03#8)
  | .derive => .word (commandWord 0x00#8 0x04#8)
  | .serialize => .word (commandWord 0x00#8 0x05#8)
  | .deserialize => .word (commandWord 0x00#8 0x06#8)
  | .illegal w => .word w
  | .tagRoot => .tag true tagRootByte
  | .tagInternal => .tag false tagInternalByte
  | .tagLeaf => .tag false tagLeafByte
  | .tagInvalid first b => .tag first b

/-- Which unit of code a word of the opcode table is, from the bits the table gives its row: a row of
16 bits is a command word; a row of 8 bits is a wire tag, in the position where that tag is valid,
except that the 8 bits 0x02 are the fixed part of LOAD_LEAF's row, whose SYM byte the table leaves
free (Log 3). -/
def tableUnit (nbits w : Nat) : Option CodeUnit :=
  if nbits = 16 then some (.word (BitVec.ofNat 16 w))
  else if nbits = 8 then
    if w % 256 = 2 then some (.word (BitVec.ofNat 16 (w % 256)))
    else some (.tag (decide (w % 256 = 255)) (BitVec.ofNat 8 w))
  else none

/-- The instruction the decoder reads from a row of the opcode table (Log 3). -/
def decodeTableWord (nbits w : Nat) : Option Instr :=
  (tableUnit nbits w).map decodeUnit

end Sys2Proof
end

