-- ==== Sys2Proof/Machine/TreeCodec.lean ====
section
/-! DEFINITION. TreeCodec: SERIALIZE (42_codec_serialize.md R160, R161) and DESERIALIZE in its recursive
form, which is the definition (43_codec_deserialize.md R175 to R194, R198). -/

namespace Sys2Proof.Machine

/-- HEADER, 30 bytes: "----- rxh tree start V2 -----" and a line feed (30_encoding.md R90). -/
def headerBytes : List Byte :=
  [0x2d#8, 0x2d#8, 0x2d#8, 0x2d#8, 0x2d#8, 0x20#8, 0x72#8, 0x78#8, 0x68#8, 0x20#8,
   0x74#8, 0x72#8, 0x65#8, 0x65#8, 0x20#8, 0x73#8, 0x74#8, 0x61#8, 0x72#8, 0x74#8,
   0x20#8, 0x56#8, 0x32#8, 0x20#8, 0x2d#8, 0x2d#8, 0x2d#8, 0x2d#8, 0x2d#8, 0x0a#8]

/-- FOOTER, 29 bytes: a line feed, "----- rxh tree end V2 -----" and a line feed (30_encoding.md R94). -/
def footerBytes : List Byte :=
  [0x0a#8, 0x2d#8, 0x2d#8, 0x2d#8, 0x2d#8, 0x2d#8, 0x20#8, 0x72#8, 0x78#8, 0x68#8,
   0x20#8, 0x74#8, 0x72#8, 0x65#8, 0x65#8, 0x20#8, 0x65#8, 0x6e#8, 0x64#8, 0x20#8,
   0x56#8, 0x32#8, 0x20#8, 0x2d#8, 0x2d#8, 0x2d#8, 0x2d#8, 0x2d#8, 0x0a#8]

/-- The header's length (00_scope.md R6). -/
def headerLength : Nat := 30
/-- The footer's length (00_scope.md R6). -/
def footerLength : Nat := 29

/-! ### Writing -/

/-- `ser(n)` (42_codec_serialize.md R161): a node's tag, then its left subtree, then its right one;
weights leave no trace (R165). -/
def ser : Node → List Byte
  | .leaf sym _ => [tagLeafByte, sym]
  | .internal l r _ => tagInternalByte :: (ser l ++ ser r)
  | .root l r => tagRootByte :: (ser l ++ ser r)

/-- The container of a tree: HEADER ++ ser(t) ++ FOOTER (R161). -/
def container (t : Node) : List Byte := headerBytes ++ ser t ++ footerBytes

/-- SERIALIZE (R160): the container is appended to OUT; with no tree, nothing is. -/
def execSerialize (s : State) : Host.Outcome State Fault Refusal :=
  match s.tree with
  | none => .next (finish .noTree s)
  | some t => .next (finish .ok (outWrite (container t) s))

/-! ### Reading -/

/-- The least position where two signatures differ (43_codec_deserialize.md R180, R188). -/
def firstDiff : List Byte → List Byte → Option Nat
  | a :: as, b :: bs => if a = b then (firstDiff as bs).map (· + 1) else some 0
  | _, _ => none

/-- `parse(first)` (R181). The first argument bounds the depth by the number of bytes left: where it is 0
no byte is left, so the read there meets the end of the stream (R202). Tag validity, value and position
together, is judged before the capacity (R186). -/
def parseNode (capacity : Option Nat) : Nat → Bool → Cursor → Except ReadError (Node × Cursor)
  | 0, _, c => .error ⟨.unexpectedEndOfInput, c.off, []⟩
  | fuel + 1, first, c =>
    match c.inp with
    | [] => .error ⟨.unexpectedEndOfInput, c.off, []⟩
    | b :: rest =>
      if (first && b != tagRootByte) || (!first && b != tagInternalByte && b != tagLeafByte) then
        .error ⟨.invalidNodeTag, c.off, rest⟩
      else if capacity = some c.count then .error ⟨.capacityExceeded, c.off, rest⟩
      else if b = tagLeafByte then
        match rest with
        | [] => .error ⟨.unexpectedEndOfInput, c.off + 1, []⟩
        | sym :: more => .ok (.leaf sym 0, ⟨more, c.off + 2, c.count + 1⟩)
      else
        match parseNode capacity fuel false ⟨rest, c.off + 1, c.count + 1⟩ with
        | .error e => .error e
        | .ok (l, c1) =>
          match parseNode capacity fuel false c1 with
          | .error e => .error e
          | .ok (r, c2) =>
            .ok (if b = tagRootByte then .root l r else .internal l r 0, c2)

/-- The three phases of DESERIALIZE on the bytes of IN (R175): the tree and what is left in IN, or the
error, its ERR_OFFSET and what is left (R192, R193). -/
def readContainer (capacity : Option Nat) (inp : List Byte) : Except ReadError (Node × List Byte) :=
  match inReadN headerLength inp with
  | none => .error ⟨.unexpectedEndOfInput, inp.length, []⟩
  | some (h, body) =>
    match firstDiff h headerBytes with
    | some k => .error ⟨.badHeaderSignature, k, body⟩
    | none =>
      match parseNode capacity body.length true ⟨body, headerLength, 0⟩ with
      | .error e => .error e
      | .ok (t, c) =>
        match inReadN footerLength c.inp with
        | none => .error ⟨.unexpectedEndOfInput, c.off + c.inp.length, []⟩
        | some (f, rest) =>
          match firstDiff f footerBytes with
          | some k => .error ⟨.badFooterSignature, c.off + k, rest⟩
          | none => .ok (t, rest)

/-- DESERIALIZE (R175): the tree and table held are dropped first (R177), ERR_OFFSET is always written
(10_state.md R34). -/
def execDeserialize (s : State) : Host.Outcome State Fault Refusal :=
  let s0 := { dropTree s with errOffset := 0 }
  match readContainer s.cfg.nodeCapacity s.inp with
  | .error e => .next (failAt e.code e.offset { s0 with inp := e.inp })
  | .ok (t, rest) => .next (finish .ok { s0 with inp := rest, tree := some t })

end Sys2Proof.Machine
end

