-- ==== Sys2Proof/Machine/TagMachine.lean ====
section
/-! DEFINITION. DESERIALIZE as the spec's explicit machine (43_codec_deserialize.md R195 to R197). Its TAG
transitions are the meanings of the four wire-tag rows; HDR, SYM and FTR consume a byte each. Every
state in which it runs has BUSY = 1 (Log 12). -/

namespace Sys2Proof.Machine

/-- IDLE to HDR when the command is issued: the first lines of R175. -/
def startDeserialize (s : State) : State :=
  { dropTree s with errOffset := 0, parse := { phase := .hdr [], off := 0, count := 0 } }

/-- The node a frame becomes when its right child is delivered (R197). -/
def closeFrame (kind : FrameKind) (l r : Node) : Node :=
  match kind with
  | .root => .root l r
  | .internal => .internal l r 0

/-- `reduce(n)` (R197): deliver a finished node to the stack, top frame first. When the last frame closes
the tree is complete and the footer is next. -/
def reduce : Frame → List Frame → Node → Phase
  | top, below, n =>
    match top.left, below with
    | none, _ => .tag ({ top with left := some n } :: below)
    | some l, [] => .ftr (closeFrame top.kind l n) []
    | some l, f :: fs => reduce f fs (closeFrame top.kind l n)
  termination_by structural _ below => below

/-- A tag has been read: `place` gives the next phase for the stack the tag meets, `none` where the tag
is invalid in that position. The checks in the order of R218: validity, then node capacity; then the
node is counted (R181, R186, R197). The tag's own offset is the one before `off`. -/
def takeTag (place : List Frame → Option Phase) (s : State) : Host.Outcome State Fault Refusal :=
  match s.parse.phase with
  | .tag stack =>
    match place stack with
    | none => .next (failAt .invalidNodeTag (s.parse.off - 1) s)
    | some p =>
      if s.cfg.nodeCapacity = some s.parse.count then
        .next (failAt .capacityExceeded (s.parse.off - 1) s)
      else
        .next { s with parse := { phase := p, off := s.parse.off, count := s.parse.count + 1 } }
  | .idle => .fault .tagOutsideBody
  | .hdr _ => .fault .tagOutsideBody
  | .sym _ _ => .fault .tagOutsideBody
  | .ftr _ _ => .fault .tagOutsideBody

/-- TAG_ROOT (30_encoding.md R88, 43_codec_deserialize.md R183): first position only; opens a ROOT frame. -/
def execTagRoot (s : State) : Host.Outcome State Fault Refusal :=
  takeTag (fun stack =>
    match stack with
    | [] => some (.tag [⟨.root, none⟩])
    | _ :: _ => none) s

/-- TAG_INTERNAL (R89): any position but the first; opens an INTERNAL frame. -/
def execTagInternal (s : State) : Host.Outcome State Fault Refusal :=
  takeTag (fun stack =>
    match stack with
    | [] => none
    | f :: fs => some (.tag (⟨.internal, none⟩ :: f :: fs))) s

/-- TAG_LEAF (R91): any position but the first; the next byte is the symbol. -/
def execTagLeaf (s : State) : Host.Outcome State Fault Refusal :=
  takeTag (fun stack =>
    match stack with
    | [] => none
    | f :: fs => some (.sym f fs)) s

/-- TAG_INVALID (R92, 43_codec_deserialize.md R182, R183): InvalidNodeTag at the tag's offset. -/
def execTagInvalid (_first : Bool) (_b : Byte) (s : State) : Host.Outcome State Fault Refusal :=
  takeTag (fun _ => none) s

/-- HDR takes its next byte (R178, R180, R197): the compare comes after the thirtieth. -/
def headerStep (buf : List Byte) (s : State) : State :=
  match inRead s with
  | none => failAt .unexpectedEndOfInput s.parse.off s
  | some (b, s1) =>
    let got := buf ++ [b]
    if got.length < headerLength then goPhase (.hdr got) s1
    else
      match firstDiff got headerBytes with
      | some k => failAt .badHeaderSignature k s1
      | none => goPhase (.tag []) s1

/-- SYM takes the symbol byte, whatever its value (R184, R197), and delivers Leaf(s, 0). -/
def symbolStep (top : Frame) (below : List Frame) (s : State) : State :=
  match inRead s with
  | none => failAt .unexpectedEndOfInput s.parse.off s
  | some (b, s1) => goPhase (reduce top below (.leaf b 0)) s1

/-- FTR takes its next byte (R187, R188, R197): after the twenty-ninth it compares, and on a match delivers
the tree. -/
def footerStep (t : Node) (buf : List Byte) (s : State) : State :=
  match inRead s with
  | none => failAt .unexpectedEndOfInput s.parse.off s
  | some (b, s1) =>
    let got := buf ++ [b]
    if got.length < footerLength then goPhase (.ftr t got) s1
    else
      match firstDiff got footerBytes with
      | some k => failAt .badFooterSignature (s1.parse.off - footerLength + k) s1
      | none => finish .ok { s1 with tree := some t }

end Sys2Proof.Machine
end

