-- ==== Sys2Proof/Machine/Operands.lean ====
section
/-! DEFINITION. The operand forms: a node's weight, the weight operand LOAD_LEAF samples, and how a value
written to a register of a given width is held. -/

namespace Sys2Proof

/-- `weight(n)` (00_scope.md R14): the weight field of a Leaf or Internal; on a Root, which no rule asks
for, a free value (Log 5). -/
def Node.weight : Node → Nat
  | .leaf _ w => w
  | .internal _ _ w => w
  | .root l r => Config.rootWeight l r

namespace Machine

/-- The number of weights, 2^W: a sum that reaches it does not fit (40_tree_builder.md R120). -/
def weightLimit (c : Config) : Nat := 2 ^ c.weightBits

/-- The weight operand of LOAD_LEAF: the whole W-bit value of WEIGHT when the command is issued
(10_state.md R35, 30_encoding.md R81). -/
def weightOperand (s : State) : Nat := s.weight

/-- A value written to WEIGHT, as its W bits hold it (10_state.md R30, Log 4). -/
def weightValue (c : Config) (val : Nat) : Nat := val % weightLimit c

end Machine
end Sys2Proof
end

