-- ==== Sys2Proof/Machine/TreeBuilder.lean ====
section
/-! DEFINITION. TreeBuilder: CLEAR, LOAD_LEAF, BUILD (40_tree_builder.md R110 to R122). -/

namespace Sys2Proof.Machine

/-- CLEAR (R110). -/
def execClear (s : State) : Host.Outcome State Fault Refusal :=
  .next (finish .ok { dropTree s with cand := [] })

/-- LOAD_LEAF (R111, R112): CapacityExceeded on a full list, else the leaf goes to the end. -/
def execLoadLeaf (sym : Byte) (s : State) : Host.Outcome State Fault Refusal :=
  if s.cfg.candCapacity = some s.cand.length then .next (finish .capacityExceeded s)
  else .next (finish .ok { s with cand := s.cand ++ [Node.leaf sym (weightOperand s)] })

/-- The position and weight of the first entry of least weight: the one that minimises
(weight, position). -/
def leastEntry : List Node → Option (Nat × Nat)
  | [] => none
  | x :: xs =>
    match leastEntry xs with
    | none => some (0, x.weight)
    | some (k, w) => if x.weight ≤ w then some (0, x.weight) else some (k + 1, w)

/-- Its position; 0 for the empty list, which no use of it meets. -/
def leastPos (c : List Node) : Nat := ((leastEntry c).map Prod.fst).getD 0

/-- `Select2` (R115): `i` minimises (weight, position) over all positions, `j` over the positions other
than `i`. -/
def select2 (c : List Node) : Nat × Nat :=
  let i := leastPos c
  let j := leastPos (c.eraseIdx i)
  (i, if j < i then j else j + 1)

/-- One round's picks (R116): `smaller`, `bigger`, and the candidates that stay, in order. -/
structure Round where
  smaller : Node
  bigger : Node
  rest : List Node
  deriving DecidableEq, Repr

/-- One round's selection and removal, the higher position first (R115, R119). Used on lists of two or
more candidates only, where both positions exist; the leaf stands in for an absent entry and is never
reached there. -/
def pairOff (c : List Node) : Round :=
  let ij := select2 c
  { smaller := c.getD ij.1 (.leaf 0#8 0)
    bigger := c.getD ij.2 (.leaf 0#8 0)
    rest := (c.eraseIdx (max ij.1 ij.2)).eraseIdx (min ij.1 ij.2) }

/-- The loop of BUILD (R116, R119 to R122) on a list of `n + 2` candidates: `n` rounds make an Internal
each and the last makes the Root, which is not summed. -/
def pairRounds (limit : Nat) : Nat → List Node → Except Code Node
  | 0, c => .ok (.root (pairOff c).smaller (pairOff c).bigger)
  | n + 1, c =>
    let p := pairOff c
    if p.rest = [] then .ok (.root p.smaller p.bigger)
    else
      let sum := p.smaller.weight + p.bigger.weight
      if limit ≤ sum then .error .weightOverflow
      else pairRounds limit n (p.rest ++ [.internal p.smaller p.bigger sum])

/-- The tree BUILD makes of a candidate list, or the code it fails with (R116 to R118). -/
def buildTree (limit : Nat) (c : List Node) : Except Code Node :=
  match c with
  | [] => .error .emptyFrequencyTable
  | [x] => .ok (.root x x)
  | _ :: _ :: _ => pairRounds limit (c.length - 2) c

/-- BUILD (R116): TREE and MAP are dropped first, CAND ends empty in every outcome. -/
def execBuild (s : State) : Host.Outcome State Fault Refusal :=
  let s0 := { dropTree s with cand := [] }
  match buildTree (weightLimit s.cfg) s.cand with
  | .error c => .next (finish c s0)
  | .ok t => .next (finish .ok { s0 with tree := some t })

end Sys2Proof.Machine
end

