-- ==== Sys2Proof/Machine/Dispatch.lean ====
section
/-! DEFINITION. One arm per constructor of Instr, each one call of its meaning. -/

namespace Sys2Proof.Machine

def exec (i : Instr) (s : State) : Host.Outcome State Fault Refusal :=
  match i with
  | .clear => Sys2Proof.Machine.execClear s
  | .loadLeaf sym => Sys2Proof.Machine.execLoadLeaf sym s
  | .build => Sys2Proof.Machine.execBuild s
  | .derive => Sys2Proof.Machine.execDerive s
  | .serialize => Sys2Proof.Machine.execSerialize s
  | .deserialize => Sys2Proof.Machine.execDeserialize s
  | .illegal w => Sys2Proof.Machine.execIllegal w s
  | .tagRoot => Sys2Proof.Machine.execTagRoot s
  | .tagInternal => Sys2Proof.Machine.execTagInternal s
  | .tagLeaf => Sys2Proof.Machine.execTagLeaf s
  | .tagInvalid first b => Sys2Proof.Machine.execTagInvalid first b s

end Sys2Proof.Machine
end

