-- ==== Sys2Proof/Machine/Flags.lean ====
section
/-! DEFINITION. The three flags and the STATUS word (10_state.md R29, R31). MAP_VALID is a field of State;
the other two are computed from the state they describe. -/

namespace Sys2Proof.Machine

/-- TREE_VALID: 1 exactly when TREE is `some` (10_state.md R25). -/
def treeValid (s : State) : Bool := s.tree.isSome

/-- BUSY: 1 while a command is running (10_state.md R29): the DESERIALIZE machine has left IDLE
(43_codec_deserialize.md R195). -/
def busy (s : State) : Bool :=
  match s.parse.phase with
  | .idle => false
  | .hdr _ => true
  | .tag _ => true
  | .sym _ _ => true
  | .ftr _ _ => true

/-- The number of a status code, as STATUS.CODE holds it (60_exceptions.md R211). -/
def codeNumber : Code → BitVec 4
  | .ok => 0#4
  | .emptyFrequencyTable => 1#4
  | .unexpectedEndOfInput => 2#4
  | .badHeaderSignature => 3#4
  | .badFooterSignature => 4#4
  | .invalidNodeTag => 5#4
  | .noTree => 6#4
  | .capacityExceeded => 7#4
  | .weightOverflow => 8#4
  | .illegalCommand => 9#4

/-- STATUS (10_state.md R31): CODE in bits 3:0, TREE_VALID in bit 4, MAP_VALID in bit 5, BUSY in bit 6,
zeros above. -/
def status (s : State) : BitVec 32 :=
  0#25 ++ BitVec.ofBool (busy s) ++ BitVec.ofBool s.mapValid ++ BitVec.ofBool (treeValid s) ++
    codeNumber s.code

end Sys2Proof.Machine
end

