-- ==== Sys2Proof/Machine/Registers.lean ====
section
/-! DEFINITION. The register file by number (10_state.md R30 to R35) and the MAP port (R33). Reading has
no effect on the state; a read answers the register's value as a natural number. -/

namespace Sys2Proof.Machine

/-- `MAP[sym]`, which the model also exposes as a value, whole at any length (10_state.md R33). -/
def mapEntry (s : State) (sym : Byte) : Option Bits := mapGet s.map sym

/-- The number whose bit `i` is the list's bit `i`, and 0 above the list's end. -/
def bitsNumber : Bits → Nat
  | [] => 0
  | b :: bs => b.toNat + 2 * bitsNumber bs

/-- How many bits MAP_INFO's LEN takes to show the length `len`: 15, more only where CODE_MAX_BITS or the
length itself needs more (10_state.md R33, "LEN widens as needed", Log 8). DESIGN CHOICE: a length past
CODE_MAX_BITS, which the spec says no code word has and which CAND_CAPACITY unbounded with
NODE_CAPACITY finite allows, widens LEN too and is shown whole (Log 21). -/
def lenBits (cfg : Config) (len : Nat) : Nat :=
  max 15 (Nat.log2 (max (cfg.codeMaxBits.getD 0) len) + 1)

/-- MAP_INFO (10_state.md R33): 0 for an absent entry, else PRESENT above LEN. -/
def mapInfo (s : State) : Nat :=
  match mapEntry s s.mapSym with
  | none => 0
  | some c => 2 ^ lenBits s.cfg c.length + c.length

/-- MAP_BITSk (10_state.md R33): bit `j` is bit `32·k + j` of the selected code word, 0 past its end. -/
def mapBits (s : State) (k : Nat) : BitVec 32 :=
  match mapEntry s s.mapSym with
  | none => 0#32
  | some c => BitVec.ofNat 32 (bitsNumber ((c.drop (32 * k)).take 32))

/-- How many MAP_BITS registers there are: eight, more only for a larger finite CODE_MAX_BITS
(10_state.md R33). DESIGN CHOICE: CODE_MAX_BITS alone sets the number, so where CAND_CAPACITY is unbounded
and NODE_CAPACITY finite the bits of a code word longer than these registers hold are shown by no
register, only by `mapEntry` (Log 21). -/
def mapBitsRegisters (cfg : Config) : Nat := max 8 ((cfg.codeMaxBits.getD 0 + 31) / 32)

/-- ERR_OFFSET as the register shows it: 32 bits when NODE_CAPACITY is finite, else the natural number
(00_scope.md R7, Log 6). -/
def errOffsetRegister (s : State) : Nat :=
  match s.cfg.nodeCapacity with
  | some _ => s.errOffset % 2 ^ 32
  | none => s.errOffset

/-- CAND_COUNT: `zext_16(|CAND|)`, or `|CAND|` itself when CAND_CAPACITY is unbounded
(10_state.md R32, Log 7). -/
def candCount (s : State) : Nat :=
  match s.cfg.candCapacity with
  | some _ => s.cand.length % 2 ^ 16
  | none => s.cand.length

/-- A read of register `reg` (10_state.md R30). CMD and every number not in the table read 0. -/
def readReg (s : State) (reg : Nat) : Nat :=
  match reg with
  | 0 => 0
  | 1 => s.weight
  | 2 => (status s).toNat
  | 3 => errOffsetRegister s
  | 4 => candCount s
  | 5 => s.mapSym.toNat
  | 6 => mapInfo s
  | 7 => 0
  | k + 8 => if k < mapBitsRegisters s.cfg then (mapBits s k).toNat else 0

/-- A write of `val` to register `reg`, CMD apart (10_state.md R30): WEIGHT and MAP_SYM store the value,
every other write is ignored. -/
def writeReg (s : State) (reg val : Nat) : State :=
  match reg with
  | 1 => { s with weight := weightValue s.cfg val }
  | 5 => { s with mapSym := BitVec.ofNat 8 val }
  | _ => s

end Sys2Proof.Machine
end

