-- ==== Sys2Proof/Machine/Fetch.lean ====
section
/-! DEFINITION. What the engine does next: the host's oldest pending action when no command runs, the next
byte of IN when a DESERIALIZE does; and where the next instruction is placed. -/

namespace Sys2Proof.Machine

/-- A host action on any state (70_reset_and_hazards.md R252). A CMD write while BUSY = 1 is dropped
(R247); otherwise the word is decoded and run. -/
def hostAct (a : HostAct) (s : State) : Fetched :=
  match a with
  | .write reg val =>
    if reg = 0 then
      if busy s then .done s else .run (decodeCommand (BitVec.ofNat 16 val)) s
    else .done (writeReg s reg val)
  | .read _ => .done s
  | .replaceIn bs => .done { s with inp := bs }
  | .extendIn bs => .done { s with inp := s.inp ++ bs }
  | .drainOut n => .done { s with out := s.out.drop n }
  | .replaceOut bs => .done { s with out := bs }
  | .reset => .done (assertReset s)

/-- The next thing to do. Idle with nothing pending is final (70_reset_and_hazards.md R259). A tag is
decoded with its position: the stack is empty before the first tag and at no later one
(43_codec_deserialize.md R196). -/
def fetch (s : State) : Fetched :=
  match s.parse.phase with
  | .idle =>
    match s.host with
    | [] => .done s
    | a :: rest => hostAct a { s with host := rest }
  | .hdr buf => .done (headerStep buf s)
  | .tag stack =>
    match inRead s with
    | none => .done (failAt .unexpectedEndOfInput s.parse.off s)
    | some (b, s1) => .run (decodeTag stack.isEmpty b) s1
  | .sym top below => .done (symbolStep top below s)
  | .ftr t buf => .done (footerStep t buf s)

/-- `s` with one unit of code placed where the next step takes its instruction (Log 3): a command word as
the host's oldest pending action, a CMD write, with no command running; a tag as the next byte of IN,
with the DESERIALIZE machine waiting for a tag in that position, which is offset 30 with no node made
for the first tag and offset 31 under an open Root for a later one. -/
def placeUnit (u : CodeUnit) (s : State) : State :=
  match u with
  | .word w => { s with parse := Parse.idle, host := .write 0 w.toNat :: s.host }
  | .tag true b => { s with parse := ⟨.tag [], headerLength, 0⟩, inp := b :: s.inp }
  | .tag false b =>
    { s with parse := ⟨.tag [⟨.root, none⟩], headerLength + 1, 1⟩, inp := b :: s.inp }

end Sys2Proof.Machine
end

