-- ==== Sys2Proof/Machine/Step.lean ====
section
/-! DEFINITION. One step: one whole command or host action when no command runs (00_scope.md R10), one byte
of the DESERIALIZE machine otherwise. -/

namespace Sys2Proof.Machine

/-- One step. Parameters the spec says to refuse are refused (93_implementation_defined.md U6, Log 16). -/
def step (s : State) : Host.Outcome State Fault Refusal :=
  if s.cfg.valid then
    match fetch s with
    | .done t => .next t
    | .run i t => exec i t
  else .refused .configurationRefused

/-- `s` with the instruction of an opcode-table row placed where the next step takes it (Log 3). Words
the table has no row width for place nothing. -/
def State.withFetchWord (s : State) (nbits w : Nat) : State :=
  match tableUnit nbits w with
  | some u => placeUnit u s
  | none => s

end Sys2Proof.Machine
end

