-- ==== Sys2Proof/Machine/Assembler.lean ====
section
/-! DEFINITION. What an assembler line and a pseudo-instruction stand for: the host's register writes, in
order (30_encoding.md R98, R99). The line's text form is notation and is not modelled. -/

namespace Sys2Proof.Machine

/-- An assembler line (R98) or a pseudo-instruction (R99). -/
inductive AsmLine where
  | clear
  | loadLeaf (sym : Byte) (weight : Nat)
  | build
  | derive
  | serialize
  | deserialize
  | buildTable (freqs : List (Byte × Nat))
  | encodeSetup (freqs : List (Byte × Nat))
  | decodeSetup
  deriving DecidableEq, Repr

/-- CMD <- the word of a command. -/
def issue (sym opc : Byte) : HostAct := .write 0 (commandWord sym opc).toNat

/-- `LOAD_LEAF sym, weight` (R98): WEIGHT <- weight, then CMD <- (sym << 8) | 0x02. -/
def loadLeafWrites (sym : Byte) (weight : Nat) : List HostAct :=
  [.write 1 weight, issue sym 0x02#8]

/-- `BUILD_TABLE` (R99): CLEAR, the loads in the written order, BUILD. -/
def buildTableWrites (freqs : List (Byte × Nat)) : List HostAct :=
  issue 0x00#8 0x01#8 :: freqs.flatMap (fun f => loadLeafWrites f.1 f.2) ++ [issue 0x00#8 0x03#8]

/-- The register writes a line assembles to. -/
def assemble : AsmLine → List HostAct
  | .clear => [issue 0x00#8 0x01#8]
  | .loadLeaf sym weight => loadLeafWrites sym weight
  | .build => [issue 0x00#8 0x03#8]
  | .derive => [issue 0x00#8 0x04#8]
  | .serialize => [issue 0x00#8 0x05#8]
  | .deserialize => [issue 0x00#8 0x06#8]
  | .buildTable freqs => buildTableWrites freqs
  | .encodeSetup freqs => buildTableWrites freqs ++ [issue 0x00#8 0x05#8, issue 0x00#8 0x04#8]
  | .decodeSetup => [issue 0x00#8 0x06#8]

end Sys2Proof.Machine
end

