-- ==== Sys2Proof/Machine/Equivalents.lean ====
section
/-! DEFINITION. The two equivalent implementations of BUILD's selection that the spec describes
(40_tree_builder.md R126). The engine's own meaning is R115's; nothing of `step` uses these. -/

namespace Sys2Proof.Machine

/-- The two running minima of the forward scan, each a position and a weight. -/
structure Minima where
  smaller : Option (Nat × Nat)
  bigger : Option (Nat × Nat)
  deriving DecidableEq, Repr

/-- Whether a weight replaces a running minimum: only a strictly smaller one does (R126 (a)). -/
def replaces (w : Nat) : Option (Nat × Nat) → Bool
  | none => true
  | some (_, v) => decide (w < v)

/-- One candidate of the scan (R126 (a)). -/
def scanOne (m : Minima) (k w : Nat) : Minima :=
  if replaces w m.smaller then { smaller := some (k, w), bigger := m.smaller }
  else if replaces w m.bigger then { m with bigger := some (k, w) }
  else m

/-- The scan from position `k` on. -/
def scanFrom : Nat → List Node → Minima → Minima
  | _, [], m => m
  | k, x :: xs, m => scanFrom (k + 1) xs (scanOne m k x.weight)

/-- The pair of positions a single forward scan selects (R126 (a)). -/
def scanPair (c : List Node) : Nat × Nat :=
  let m := scanFrom 0 c ⟨none, none⟩
  ((m.smaller.map Prod.fst).getD 0, (m.bigger.map Prod.fst).getD 0)

/-- A queued candidate and its sequence number (R126 (b)). -/
structure Queued where
  seq : Nat
  node : Node
  deriving DecidableEq, Repr

/-- The key order (weight, sequence number). -/
def queuedBefore (a b : Queued) : Bool :=
  decide (a.node.weight < b.node.weight) ||
    (decide (a.node.weight = b.node.weight) && decide (a.seq ≤ b.seq))

/-- Insertion into a queue kept in key order. -/
def enqueue (e : Queued) : List Queued → List Queued
  | [] => [e]
  | x :: q => if queuedBefore e x then e :: x :: q else x :: enqueue e q

/-- The candidates queued in load order, numbered from `k`. -/
def enqueueAll : Nat → List Node → List Queued → List Queued
  | _, [], q => q
  | k, x :: xs, q => enqueueAll (k + 1) xs (enqueue ⟨k, x⟩ q)

/-- Pop two, push one with the next number; the last two popped make the Root. -/
def queueRounds (limit : Nat) : Nat → Nat → List Queued → Except Code Node
  | n, k, a :: b :: q =>
    match n, q with
    | 0, _ => .ok (.root a.node b.node)
    | _, [] => .ok (.root a.node b.node)
    | n + 1, x :: q =>
      let sum := a.node.weight + b.node.weight
      if limit ≤ sum then .error .weightOverflow
      else queueRounds limit n (k + 1) (enqueue ⟨k, .internal a.node b.node sum⟩ (x :: q))
  | _, _, [x] => .ok (.root x.node x.node)
  | _, _, [] => .error .emptyFrequencyTable

/-- BUILD's tree by a priority queue keyed by (weight, sequence number) (R126 (b)). -/
def queueBuild (limit : Nat) (c : List Node) : Except Code Node :=
  queueRounds limit (c.length - 2) c.length (enqueueAll 0 c [])

end Sys2Proof.Machine
end

