-- ==== Sys2Proof/Machine/TreePort.lean ====
section
/-! DEFINITION. The tree port and the decoder's descent through it (41_conversion_map.md R150, R151): what
the engine owes the external bit-reader. Neither is a command and neither changes the state. -/

namespace Sys2Proof.Machine

/-- The value of TREE, read-only (R150). -/
def treePort (s : State) : Option Node := s.tree

/-- What the port tells of a node: a Leaf's symbol, or that it has children (R150). -/
inductive PortView where
  | branch
  | leaf (sym : Byte)
  deriving DecidableEq, Repr

/-- A node's child on the side a bit names, 0 left and 1 right; a Leaf has none. -/
def childOf (n : Node) (b : Bool) : Option Node :=
  match n with
  | .leaf _ _ => none
  | .internal l r _ => some (if b then r else l)
  | .root l r => some (if b then r else l)

/-- The node a bit path reaches. -/
def nodeAt : Node → Bits → Option Node
  | n, [] => some n
  | n, b :: p =>
    match childOf n b with
    | none => none
    | some c => nodeAt c p

/-- What the port shows at a bit path from the Root. -/
def portView (s : State) (p : Bits) : Option PortView :=
  match s.tree with
  | none => none
  | some t =>
    match nodeAt t p with
    | none => none
    | some (.leaf sym _) => some (.leaf sym)
    | some (.internal _ _ _) => some .branch
    | some (.root _ _) => some .branch

/-- One bit of the descent (R151) from `cur` in the tree `t`: the symbol emitted, if a Leaf is reached,
and the next position. A Leaf has no child; the descent never stands on one. -/
def descendBit (t cur : Node) (b : Bool) : Option Byte × Node :=
  match childOf cur b with
  | some (.leaf sym _) => (some sym, t)
  | some (.internal l r w) => (none, .internal l r w)
  | some (.root l r) => (none, .root l r)
  | none => (none, cur)

/-- The descent over a bit sequence from `cur` (R151): the symbols emitted and where it ends. -/
def descendFrom (t : Node) : Node → Bits → List Byte × Node
  | cur, [] => ([], cur)
  | cur, b :: bs =>
    let one := descendBit t cur b
    let more := descendFrom t one.2 bs
    (one.1.toList ++ more.1, more.2)

/-- The decoder's descent of R151, from the Root. -/
def descend (t : Node) (bs : Bits) : List Byte × Node := descendFrom t t bs

end Sys2Proof.Machine
end

