-- ==== Sys2Proof/WellFormed.lean ====
section
/-! DEFINITION. Which terms of `Instr` the encodings admit: an ILLEGAL carries a word no command row
matches, a TAG_INVALID a byte that is no valid tag in its position. -/

namespace Sys2Proof

/-- OPC = word[7:0] (30_encoding.md R80). -/
def opcField (w : CmdWord) : Byte := w.extractLsb' 0 8

/-- SYM = word[15:8] (30_encoding.md R80). -/
def symField (w : CmdWord) : Byte := w.extractLsb' 8 8

/-- The illegal words (30_encoding.md R83): OPC 0x00, OPC ≥ 0x07, or an opcode other than LOAD_LEAF's
with SYM ≠ 0x00. -/
def illegalWord (w : CmdWord) : Bool :=
  decide (opcField w = 0x00#8) || decide (7 ≤ (opcField w).toNat) ||
    (decide (opcField w ≠ 0x02#8) && decide (symField w ≠ 0x00#8))

/-- The invalid tags (30_encoding.md R92): any byte but 255 in the first position, any byte but 0 and 1
in a later one. -/
def invalidTag (first : Bool) (b : Byte) : Bool :=
  if first then decide (b ≠ 0xff#8) else decide (b ≠ 0x00#8) && decide (b ≠ 0x01#8)

/-- Every field at a value its row admits. -/
def Instr.wellFormed : Instr → Bool
  | .illegal w => illegalWord w
  | .tagInvalid first b => invalidTag first b
  | .clear => true
  | .loadLeaf _ => true
  | .build => true
  | .derive => true
  | .serialize => true
  | .deserialize => true
  | .tagRoot => true
  | .tagInternal => true
  | .tagLeaf => true

end Sys2Proof
end

