-- ==== Sys2Proof/Safety.lean ====
section
/-! DEFINITION. The terms claims are made in: what is counted and compared on trees, the relational reading
of BUILD's rules, and the invariant of the machine. -/

namespace Sys2Proof

/-! ### Trees -/

/-- No Root anywhere in the node. -/
def Node.rootFree : Node → Bool
  | .leaf _ _ => true
  | .internal l r _ => l.rootFree && r.rootFree
  | .root _ _ => false

/-- A Root over two subtrees that hold no Root: what TREE always is (10_state.md R25). -/
def Node.isTree : Node → Bool
  | .leaf _ _ => false
  | .internal _ _ _ => false
  | .root l r => l.rootFree && r.rootFree

/-- A leaf whose weight is below the limit: what CAND holds between commands (10_state.md R24). -/
def Node.isCandidate (limit : Nat) : Node → Bool
  | .leaf _ w => decide (w < limit)
  | .internal _ _ _ => false
  | .root _ _ => false

/-- How many nodes. -/
def Node.nodes : Node → Nat
  | .leaf _ _ => 1
  | .internal l r _ => 1 + l.nodes + r.nodes
  | .root l r => 1 + l.nodes + r.nodes

/-- The leaves with their weights, left to right. -/
def Node.leaves : Node → List (Byte × Nat)
  | .leaf sym w => [(sym, w)]
  | .internal l r _ => l.leaves ++ r.leaves
  | .root l r => l.leaves ++ r.leaves

/-- The leaves' symbols, left to right. -/
def Node.symbols (n : Node) : List Byte := n.leaves.map Prod.fst

/-- The leaves' symbols with the bit path to each, left to right, the bits before the node being `p`. -/
def Node.paths : Node → Bits → List (Byte × Bits)
  | .leaf sym _, p => [(sym, p)]
  | .internal l r _, p => l.paths (p ++ [false]) ++ r.paths (p ++ [true])
  | .root l r, p => l.paths (p ++ [false]) ++ r.paths (p ++ [true])

/-- The greatest depth of a node (00_scope.md R19). -/
def Node.height : Node → Nat
  | .leaf _ _ => 0
  | .internal l r _ => 1 + max l.height r.height
  | .root l r => 1 + max l.height r.height

/-- The same tree with every weight 0 (43_codec_deserialize.md R185, R199). -/
def Node.unweighted : Node → Node
  | .leaf sym _ => .leaf sym 0
  | .internal l r _ => .internal l.unweighted r.unweighted 0
  | .root l r => .root l.unweighted r.unweighted

/-- Every Internal's weight is the sum of its children's (10_state.md R20). -/
def Node.summed : Node → Bool
  | .leaf _ _ => true
  | .internal l r w => decide (w = l.weight + r.weight) && l.summed && r.summed
  | .root l r => l.summed && r.summed

namespace Machine

/-! ### BUILD's rules as relations (40_tree_builder.md R115 to R122) -/

/-- The weight of the candidate at a position. -/
def weightAt (c : List Node) (k : Nat) : Nat := (c.map Node.weight).getD k 0

/-- `i` minimises (weight, position) over the positions that `ok` admits. -/
def LeastOf (c : List Node) (ok : Nat → Prop) (i : Nat) : Prop :=
  i < c.length ∧ ok i ∧ ∀ k, k < c.length → ok k →
    weightAt c i < weightAt c k ∨ (weightAt c i = weightAt c k ∧ i ≤ k)

/-- R115: `i` is the least of all, `j` the least of the others. -/
def Selects (c : List Node) (i j : Nat) : Prop :=
  LeastOf c (fun _ => True) i ∧ LeastOf c (fun k => k ≠ i) j

/-- R119: the candidates that stay, the higher position removed first. -/
def withoutPair (c : List Node) (i j : Nat) : List Node :=
  (c.eraseIdx (max i j)).eraseIdx (min i j)

/-- What the loop of R116 does with a list of two or more candidates. -/
inductive Builds (limit : Nat) : List Node → Except Code Node → Prop where
  /-- nothing is left: the pair becomes the Root's children (R121) -/
  | last {cs i j a b} : Selects cs i j → cs[i]? = some a → cs[j]? = some b → withoutPair cs i j = [] →
      Builds limit cs (.ok (.root a b))
  /-- the sum does not fit (R120) -/
  | overflow {cs i j a b} : Selects cs i j → cs[i]? = some a → cs[j]? = some b → withoutPair cs i j ≠ [] →
      limit ≤ a.weight + b.weight → Builds limit cs (.error .weightOverflow)
  /-- the new Internal goes to the end of those that stay (R122) -/
  | round {cs i j a b result} : Selects cs i j → cs[i]? = some a → cs[j]? = some b →
      withoutPair cs i j ≠ [] → a.weight + b.weight < limit →
      Builds limit (withoutPair cs i j ++ [.internal a b (a.weight + b.weight)]) result →
      Builds limit cs result

/-! ### The invariant -/

/-- A frame's finished left child holds no Root. -/
def Frame.leftOk (f : Frame) : Bool :=
  match f.left with
  | none => true
  | some l => l.rootFree

/-- A parse stack with frames on it, top first: the bottom one is the Root's, the others are Internals'
(43_codec_deserialize.md R196). -/
def stackOk : List Frame → Bool
  | [] => false
  | [f] => decide (f.kind = .root) && Frame.leftOk f
  | f :: g :: fs => decide (f.kind = .internal) && Frame.leftOk f && stackOk (g :: fs)

/-- The nodes a stack stands for: one for each frame, and its left child's. -/
def stackNodes : List Frame → Nat
  | [] => 0
  | f :: fs => 1 + (f.left.map Node.nodes).getD 0 + stackNodes fs

/-- The phase holds what R195 to R197 say it holds, and `count` is the number of nodes made. -/
def phaseOk (p : Parse) : Bool :=
  match p.phase with
  | .idle => decide (p.off = 0) && decide (p.count = 0)
  | .hdr buf => decide (buf.length < headerLength) && decide (p.off = buf.length) && decide (p.count = 0)
  | .tag stack => (stack.isEmpty || stackOk stack) && decide (p.count = stackNodes stack)
  | .sym top below =>
    stackOk (top :: below) && decide (p.count = stackNodes (top :: below) + 1)
  | .ftr t buf =>
    t.isTree && decide (p.count = t.nodes) && decide (buf.length < footerLength)

/-- TREE is a Root whose subtrees hold no Root (10_state.md R25). -/
def treeOk (s : State) : Bool :=
  match s.tree with
  | none => true
  | some t => t.isTree

/-- CAND holds leaves with W-bit weights, at most CAND_CAPACITY of them (10_state.md R24). -/
def candOk (s : State) : Bool :=
  s.cand.all (Node.isCandidate (weightLimit s.cfg)) &&
    match s.cfg.candCapacity with
    | some n => decide (s.cand.length ≤ n)
    | none => true

/-- MAP is the current tree's table when MAP_VALID is 1, and empty when it is 0 (10_state.md R26, R28). -/
def mapOk (s : State) : Bool :=
  if s.mapValid then
    match s.tree with
    | some t => decide (s.map = codeTable t)
    | none => false
  else decide (s.map = [])

/-- While a command runs there is neither tree nor table (43_codec_deserialize.md R177). -/
def runningOk (s : State) : Bool :=
  !busy s || (decide (s.tree = none) && !s.mapValid)

/-- With both capacities finite, no tree held and no parse has more than NODE_CAPACITY nodes
(40_tree_builder.md R123, 43_codec_deserialize.md R186). -/
def capacityOk (s : State) : Bool :=
  match s.cfg.candCapacity, s.cfg.nodeCapacity with
  | some _, some n =>
    decide (s.parse.count ≤ n) &&
      match s.tree with
      | some t => decide (t.nodes ≤ n)
      | none => true
  | _, _ => true

/-- The invariant of the machine. -/
abbrev State.Inv (s : State) : Prop :=
  treeOk s = true ∧ candOk s = true ∧ mapOk s = true ∧ runningOk s = true ∧
    phaseOk s.parse = true ∧ capacityOk s = true ∧ s.weight < weightLimit s.cfg

/-! ### Runs -/

/-- No command is running: what every state the host can observe is (00_scope.md R10). -/
abbrev atRest (s : State) : Prop := s.parse = Parse.idle

/-- The frame of the engine that every command keeps: the parameters, the operand registers, the host's
remaining actions (10_state.md R35). -/
def keepsOperands (s t : State) : Prop :=
  t.cfg = s.cfg ∧ t.weight = s.weight ∧ t.mapSym = s.mapSym ∧ t.host = s.host

/-- A run in which every command succeeded (70_reset_and_hazards.md R259). -/
def allOk (s : State) : Bool := s.codes.all fun c => decide (c = .ok)

end Machine
end Sys2Proof
end

