-- ==== Sys2Proof/Certificates/Slice0/Obligations.lean ====
section
/-! DEFINITION. The statements for the provers, from the spec's numbered rules. -/

open Sys2Proof Sys2Proof.Machine

/-! ### Terms of these statements -/

/-- The state a BUILD leaves when its loop ends in `r` (40_tree_builder.md R116). -/
def Sys2Proof.Machine.afterBuild (r : Except Code Node) (s : State) : State :=
  let c := match r with
    | .ok _ => Code.ok
    | .error e => e
  { s with
    cand := []
    tree := r.toOption
    map := []
    mapValid := false
    code := c
    parse := Parse.idle
    codes := s.codes ++ [c] }

/-- The state a DESERIALIZE leaves: the tree if there is one, the code, ERR_OFFSET, and what is left of IN
(43_codec_deserialize.md R189, R194). -/
def Sys2Proof.Machine.afterRead (t : Option Node) (c : Code) (offset : Nat) (rest : List Byte)
    (s : State) : State :=
  { s with
    tree := t
    map := []
    mapValid := false
    code := c
    errOffset := offset
    inp := rest
    parse := Parse.idle
    codes := s.codes ++ [c] }

/-- A command has ended with code `c` and nothing else changed (60_exceptions.md R215). -/
def Sys2Proof.Machine.ended (c : Code) (s : State) : State :=
  { s with code := c, parse := Parse.idle, codes := s.codes ++ [c] }

/-- The tree has no more nodes than NODE_CAPACITY (00_scope.md R7). -/
def Sys2Proof.Machine.fitsCapacity (t : Node) (s : State) : Prop :=
  ∀ n, s.cfg.nodeCapacity = some n → t.nodes ≤ n

/-- The symbols of the candidate list, in load order. -/
def Sys2Proof.Machine.candSymbols (s : State) : List Byte := s.cand.flatMap Node.symbols

/-- The codes a command can end with (60_exceptions.md R213); `none` for the wire tags, which are no
commands. -/
def Sys2Proof.Machine.commandCodes : Instr → Option (List Code)
  | .clear => some [.ok]
  | .loadLeaf _ => some [.ok, .capacityExceeded]
  | .build => some [.ok, .emptyFrequencyTable, .weightOverflow]
  | .derive => some [.ok, .noTree]
  | .serialize => some [.ok, .noTree]
  | .deserialize =>
    some [.ok, .unexpectedEndOfInput, .badHeaderSignature, .badFooterSignature, .invalidNodeTag,
      .capacityExceeded]
  | .illegal _ => some [.illegalCommand]
  | .tagRoot => none
  | .tagInternal => none
  | .tagLeaf => none
  | .tagInvalid _ _ => none

/-- The same by number (60_exceptions.md R211). -/
def Sys2Proof.Machine.numbersOf (i : Instr) : Option (List (BitVec 4)) :=
  (commandCodes i).map (List.map codeNumber)

/-! ### Encodings -/

/-- Decoding an encoded well-formed instruction gives it back, every operand at every value
(30_encoding.md R80 to R83, R86, R92). -/
def Obligations.DecodeOfEncode : Prop :=
  ∀ i : Instr, i.wellFormed = true → decodeUnit (encode i) = i

/-- Every unit of code decodes to a well-formed instruction that is encoded as that unit: each word and
each tag in its position has one meaning (30_encoding.md R83, R92). -/
def Obligations.EncodeOfDecode : Prop :=
  ∀ u : CodeUnit, (decodeUnit u).wellFormed = true ∧ encode (decodeUnit u) = u

/-- The illegal words are exactly those R83 names (30_encoding.md R83). -/
def Obligations.IllegalWordsAreThoseNamed : Prop :=
  ∀ w : CmdWord, decodeCommand w = .illegal w ↔
    opcField w = 0x00#8 ∨ 7 ≤ (opcField w).toNat ∨
      (opcField w ∈ [0x01#8, 0x03#8, 0x04#8, 0x05#8, 0x06#8] ∧ symField w ≠ 0x00#8)

/-- Words and tags written out from the tables decode as the spec lists them (95_test_vectors.md V-E1 to
V-E13; 30_encoding.md R86, R92). -/
def Obligations.ListedWordsDecode : Prop :=
  decodeCommand 0x0001#16 = .clear ∧ decodeCommand 0x6102#16 = .loadLeaf 0x61#8 ∧
  decodeCommand 0x0002#16 = .loadLeaf 0x00#8 ∧ decodeCommand 0xff02#16 = .loadLeaf 0xff#8 ∧
  decodeCommand 0x0003#16 = .build ∧ decodeCommand 0x0004#16 = .derive ∧
  decodeCommand 0x0005#16 = .serialize ∧ decodeCommand 0x0006#16 = .deserialize ∧
  decodeCommand 0x0103#16 = .illegal 0x0103#16 ∧ decodeTag true 0xff#8 = .tagRoot ∧
  decodeTag false 0x00#8 = .tagInternal ∧ decodeTag false 0x01#8 = .tagLeaf ∧
  decodeTag false 0x02#8 = .tagInvalid false 0x02#8 ∧ decodeTag false 0xff#8 = .tagInvalid false 0xff#8 ∧
  decodeTag true 0x00#8 = .tagInvalid true 0x00#8

/-! ### CLEAR, LOAD_LEAF, BUILD -/

/-- CLEAR empties the stores, cannot fail, and leaves the operand registers, ERR_OFFSET and the streams
(40_tree_builder.md R110). -/
def Obligations.ClearEmptiesTheStores : Prop :=
  encode .clear = .word 0x0001#16 ∧
  ∀ s : State, ∃ t, exec .clear s = .next t ∧
    t.cand = [] ∧ t.tree = none ∧ (∀ sym, mapEntry t sym = none) ∧ t.code = .ok ∧
    treeValid t = false ∧ t.mapValid = false ∧
    t.weight = s.weight ∧ t.mapSym = s.mapSym ∧ t.errOffset = s.errOffset ∧
    t.inp = s.inp ∧ t.out = s.out ∧ t.cfg = s.cfg ∧ t.host = s.host

/-- LOAD_LEAF appends Leaf(SYM, WEIGHT) at the end of CAND, or fails with CapacityExceeded on a full list;
nothing else changes (40_tree_builder.md R111). -/
def Obligations.LoadLeafAppendsOrIsFull : Prop :=
  ∀ (sym : Byte) (s : State),
    encode (.loadLeaf sym) = .word (sym ++ 0x02#8) ∧
    (s.cfg.candCapacity ≠ some s.cand.length →
      exec (.loadLeaf sym) s = .next (ended .ok { s with cand := s.cand ++ [.leaf sym s.weight] })) ∧
    (s.cfg.candCapacity = some s.cand.length →
      exec (.loadLeaf sym) s = .next (ended .capacityExceeded s))

/-- Select2 answers the pair of positions that R115 defines and no other; the two differ, the first is not
the heavier, and the second may stand before the first (40_tree_builder.md R115). -/
def Obligations.SelectionMeetsItsRule : Prop :=
  (∀ cs : List Node, 2 ≤ cs.length →
    (∀ i j, Selects cs i j ↔ select2 cs = (i, j)) ∧
    (select2 cs).1 ≠ (select2 cs).2 ∧
    weightAt cs (select2 cs).1 ≤ weightAt cs (select2 cs).2) ∧
  ∃ cs : List Node, 2 ≤ cs.length ∧ (select2 cs).2 < (select2 cs).1

/-- BUILD does what R116's pseudocode says on every candidate list, read as a relation: an empty list fails,
one candidate is doubled, two or more go round by round to the Root or to an overflow; TREE, MAP and CAND
end as it says and nothing else changes (40_tree_builder.md R116). -/
def Obligations.BuildFollowsTheRounds : Prop :=
  encode .build = .word 0x0003#16 ∧
  ∀ s : State,
    (s.cand = [] → exec .build s = .next (afterBuild (.error .emptyFrequencyTable) s)) ∧
    (∀ x, s.cand = [x] → exec .build s = .next (afterBuild (.ok (.root x x)) s)) ∧
    (2 ≤ s.cand.length → ∃ r, Builds (weightLimit s.cfg) s.cand r ∧
      (∀ r', Builds (weightLimit s.cfg) s.cand r' → r' = r) ∧
      exec .build s = .next (afterBuild r s))

/-- BUILD on one leaf makes the two-sided tree of that leaf, whose body, code word and decoding are as R118
says (40_tree_builder.md R118). -/
def Obligations.OneSymbolTree : Prop :=
  ∀ (s : State) (x : Byte) (w : Nat), s.cand = [.leaf x w] →
    exec .build s = .next (afterBuild (.ok (.root (.leaf x w) (.leaf x w))) s) ∧
    ser (.root (.leaf x w) (.leaf x w)) = [0xff#8, 0x01#8, x, 0x01#8, x] ∧
    codeTable (.root (.leaf x w) (.leaf x w)) = [(x, [true])] ∧
    ∀ b, descend (.root (.leaf x w) (.leaf x w)) [b] = ([x], .root (.leaf x w) (.leaf x w))

/-- Weights whose total is below 2^W never overflow: BUILD then makes a tree
(40_tree_builder.md R120). -/
def Obligations.BuildSucceedsBelowTheLimit : Prop :=
  ∀ s : State, s.cand ≠ [] → (s.cand.map Node.weight).sum < weightLimit s.cfg →
    ∃ t, exec .build s = .next (afterBuild (.ok t) s)

/-- Two candidates always make a tree: the pair that becomes the Root's children is never summed
(40_tree_builder.md R120, R121). -/
def Obligations.LastPairIsNotSummed : Prop :=
  ∀ (s : State) (a b : Node), s.cand = [a, b] →
    exec .build s = .next (afterBuild (.ok
      (if a.weight ≤ b.weight then .root a b else .root b a)) s)

/-- A tree built from n ≥ 2 leaves has exactly those leaves, 2n − 1 nodes, one Root on top, and every
Internal's weight the sum of its children's (40_tree_builder.md R123). -/
def Obligations.BuiltTreeShape : Prop :=
  ∀ (s u : State) (t : Node), 2 ≤ s.cand.length →
    s.cand.all (Node.isCandidate (weightLimit s.cfg)) = true →
    exec .build s = .next u → u.tree = some t →
    t.leaves.Perm (s.cand.flatMap Node.leaves) ∧ t.leaves.length = s.cand.length ∧
    t.nodes = 2 * s.cand.length - 1 ∧ t.isTree = true ∧ t.summed = true

/-- No leaf of a tree built from n ≥ 2 leaves is deeper than n − 1 (40_tree_builder.md R124). -/
def Obligations.BuiltTreeHeight : Prop :=
  ∀ (s u : State) (t : Node), 2 ≤ s.cand.length →
    s.cand.all (Node.isCandidate (weightLimit s.cfg)) = true →
    exec .build s = .next u → u.tree = some t → t.height ≤ s.cand.length - 1

/-- The forward scan with two running minima selects the same pair (40_tree_builder.md R126 (a)). -/
def Obligations.ForwardScanSelectsTheSame : Prop :=
  ∀ cs : List Node, 2 ≤ cs.length → scanPair cs = select2 cs

/-- A priority queue keyed by weight and sequence number builds the same tree, or fails alike
(40_tree_builder.md R126 (b)). -/
def Obligations.PriorityQueueBuildsTheSame : Prop :=
  ∀ (limit : Nat) (cs : List Node), queueBuild limit cs = buildTree limit cs

/-! ### DERIVE and what its table owes -/

/-- DERIVE records for each symbol the path of the rightmost leaf that carries it, and no other entry; with
no tree it fails with NoTree and an empty table; nothing else changes (41_conversion_map.md R140 to R142). -/
def Obligations.DeriveRecordsThePaths : Prop :=
  encode .derive = .word 0x0004#16 ∧
  ∀ s : State,
    (∀ t, s.tree = some t → ∃ m,
      exec .derive s = .next (ended .ok { s with map := m, mapValid := true }) ∧
      ∀ sym, mapGet m sym =
        ((t.paths []).reverse.find? fun e => decide (e.1 = sym)).map Prod.snd) ∧
    (s.tree = none →
      exec .derive s = .next (ended .noTree { s with map := [], mapValid := false }))

/-- No code word in a table is an initial part of another's (41_conversion_map.md R145). -/
def Obligations.CodeWordsArePrefixFree : Prop :=
  ∀ (t : Node) (a b : Byte) (ca cb : Bits), a ≠ b →
    mapGet (codeTable t) a = some ca → mapGet (codeTable t) b = some cb → ¬ ca <+: cb

/-- After BUILD and DERIVE on a list of leaves with different symbols the table has an entry for exactly the
loaded symbols, as many as were loaded; the tree has as many leaves, or two when one was loaded
(41_conversion_map.md R146). -/
def Obligations.TableCoversTheLoadedSymbols : Prop :=
  ∀ s u v : State, s.cand ≠ [] → s.cand.all (Node.isCandidate (weightLimit s.cfg)) = true →
    (candSymbols s).Nodup → exec .build s = .next u → u.code = .ok → exec .derive u = .next v →
    (∀ sym, (mapEntry v sym).isSome = true ↔ sym ∈ candSymbols s) ∧
    v.map.length = s.cand.length ∧
    ∃ t, u.tree = some t ∧
      t.leaves.length = if s.cand.length = 1 then 2 else s.cand.length

/-- Every code word of a held tree has length 1 to the tree's height, and the lengths of a tree with unique
symbols meet the Kraft equality, here with both sides times 2^height (41_conversion_map.md R147). -/
def Obligations.CodeLengthsMeetKraft : Prop :=
  ∀ t : Node, t.isTree = true →
    (∀ sym c, mapGet (codeTable t) sym = some c → 1 ≤ c.length ∧ c.length ≤ t.height) ∧
    (t.symbols.Nodup →
      ((codeTable t).map fun e => 2 ^ (t.height - e.2.length)).sum = 2 ^ t.height)

/-- The decoder's descent inverts encoding on a tree with unique symbols, and on the one-symbol tree every
bit emits the symbol (41_conversion_map.md R152). -/
def Obligations.DescentInvertsEncoding : Prop :=
  (∀ (t : Node) (msg : List Byte), t.isTree = true → t.symbols.Nodup →
    (∀ x ∈ msg, (mapGet (codeTable t) x).isSome = true) →
    descend t (msg.flatMap fun x => (mapGet (codeTable t) x).getD []) = (msg, t)) ∧
  (∀ (x : Byte) (v w : Nat) (bits : Bits),
    descend (.root (.leaf x v) (.leaf x w)) bits =
      (List.replicate bits.length x, .root (.leaf x v) (.leaf x w))) ∧
  ∀ (x : Byte) (v w : Nat),
    mapGet (codeTable (.root (.leaf x v) (.leaf x w))) x = some [true]

/-- A symbol's code word, followed through the tree port, reaches a leaf with that symbol
(41_conversion_map.md R141, R150). -/
def Obligations.PortReachesEachCodeWord : Prop :=
  ∀ (s : State) (t : Node) (sym : Byte) (c : Bits), s.tree = some t →
    mapGet (codeTable t) sym = some c → portView s c = some (.leaf sym)

/-- Two trees that differ only in weights have one table and one container
(10_state.md R23, 42_codec_serialize.md R165). -/
def Obligations.WeightsPlayNoPart : Prop :=
  ∀ t t' : Node, t.unweighted = t'.unweighted →
    codeTable t = codeTable t' ∧ container t = container t'

/-! ### SERIALIZE -/

/-- SERIALIZE appends HEADER, the Root's tag, both subtrees' bodies and FOOTER to OUT; with no tree it
appends nothing and reports NoTree; nothing else changes (42_codec_serialize.md R160). -/
def Obligations.SerializeAppendsTheContainer : Prop :=
  encode .serialize = .word 0x0005#16 ∧
  ∀ s : State,
    (∀ l r, s.tree = some (.root l r) →
      exec .serialize s = .next (ended .ok
        { s with out := s.out ++ headerBytes ++ [0xff#8] ++ ser l ++ ser r ++ footerBytes })) ∧
    (s.tree = none → exec .serialize s = .next (ended .noTree s))

/-- A successful SERIALIZE of a tree with L leaves lengthens OUT by 3·L + 58 bytes, a failed one by none
(42_codec_serialize.md R163). -/
def Obligations.SerializedLength : Prop :=
  ∀ s : State, ∃ u, exec .serialize s = .next u ∧
    (∀ t, s.tree = some t → u.out.length = s.out.length + (3 * t.leaves.length + 58)) ∧
    (s.tree = none → u.out.length = s.out.length)

/-- Two held trees have the same container exactly when they are equal apart from weights, and then they
have the same code table (42_codec_serialize.md R166). -/
def Obligations.ContainerIsInjective : Prop :=
  ∀ t t' : Node, t.isTree = true → t'.isTree = true →
    (container t = container t' ↔ t.unweighted = t'.unweighted) ∧
    (container t = container t' → codeTable t = codeTable t')

/-! ### DESERIALIZE -/

/-- A DESERIALIZE of a held tree's container succeeds, leaves IN at the byte after it, and rebuilds the tree
with every weight 0, whose table is the original's; no symbol need be unique
(43_codec_deserialize.md R199, R189, R190). -/
def Obligations.DeserializeRebuildsTheTree : Prop :=
  ∀ (s : State) (t : Node) (rest : List Byte), t.isTree = true → fitsCapacity t s →
    s.inp = container t ++ rest →
    exec .deserialize s = .next (afterRead (some t.unweighted) .ok 0 rest s) ∧
    codeTable t.unweighted = codeTable t

/-- After a DESERIALIZE that succeeded, SERIALIZE appends exactly the bytes it consumed
(43_codec_deserialize.md R200). -/
def Obligations.SerializeReturnsTheBytes : Prop :=
  ∀ s u : State, exec .deserialize s = .next u → u.code = .ok →
    ∃ c v, s.inp = c ++ u.inp ∧ exec .serialize u = .next v ∧ v.out = u.out ++ c ∧ v.code = .ok

/-- The explicit machine and the recursion agree: stepped from the moment the command is issued, at most
once for each byte of IN and once for its end, the machine comes to the very state the atomic command
gives (43_codec_deserialize.md R198, R202). -/
def Obligations.MachineAgreesWithRecursion : Prop :=
  ∀ s : State, s.cfg.valid = true →
    ∃ n, n ≤ s.inp.length + 1 ∧
      Host.Core.run Sys2Proof.core n (startDeserialize s) = exec .deserialize s

/-- Fewer than 30 bytes in IN: all are consumed and the command fails with UnexpectedEndOfInput at their
number, whether or not they match (43_codec_deserialize.md R178). -/
def Obligations.ShortHeaderFails : Prop :=
  ∀ s : State, s.inp.length < 30 →
    exec .deserialize s = .next (afterRead none .unexpectedEndOfInput s.inp.length [] s)

/-- Thirty bytes that are not HEADER: BadHeaderSignature at the first that differs, exactly thirty consumed
(43_codec_deserialize.md R180). -/
def Obligations.BadHeaderFails : Prop :=
  ∀ (s : State) (h rest : List Byte), s.inp = h ++ rest → h.length = 30 → h ≠ headerBytes →
    ∃ k x y, k < 30 ∧ h.take k = headerBytes.take k ∧ h[k]? = some x ∧ headerBytes[k]? = some y ∧
      x ≠ y ∧ exec .deserialize s = .next (afterRead none .badHeaderSignature k rest s)

/-- A body that does not open with 255 fails with InvalidNodeTag at offset 30, the byte consumed
(43_codec_deserialize.md R183). -/
def Obligations.FirstTagMustBeRoot : Prop :=
  ∀ (s : State) (b : Byte) (rest : List Byte), s.inp = headerBytes ++ b :: rest → b ≠ 0xff#8 →
    exec .deserialize s = .next (afterRead none .invalidNodeTag 30 rest s)

/-- After a good body: fewer than 29 bytes fail with UnexpectedEndOfInput at the total consumed; 29 bytes
that are not FOOTER fail with BadFooterSignature at the first that differs, all 29 consumed
(43_codec_deserialize.md R187, R188). -/
def Obligations.BadFooterFails : Prop :=
  ∀ (s : State) (t : Node) (f rest : List Byte), t.isTree = true → fitsCapacity t s →
    (s.inp = headerBytes ++ ser t ++ f → f.length < 29 →
      exec .deserialize s = .next (afterRead none .unexpectedEndOfInput s.inp.length [] s)) ∧
    (s.inp = headerBytes ++ ser t ++ f ++ rest → f.length = 29 → f ≠ footerBytes →
      ∃ k x y, k < 29 ∧ f.take k = footerBytes.take k ∧ f[k]? = some x ∧ footerBytes[k]? = some y ∧
        x ≠ y ∧ exec .deserialize s =
          .next (afterRead none .badFooterSignature (30 + (ser t).length + k) rest s))

/-- A failed DESERIALIZE leaves no tree and an empty table, and does not touch CAND, WEIGHT, MAP_SYM or
OUT (43_codec_deserialize.md R194). -/
def Obligations.FailedReadLeavesNoTree : Prop :=
  ∀ s u : State, exec .deserialize s = .next u → u.code ≠ .ok →
    u.tree = none ∧ treeValid u = false ∧ (∀ sym, mapEntry u sym = none) ∧ u.mapValid = false ∧
    u.cand = s.cand ∧ u.weight = s.weight ∧ u.mapSym = s.mapSym ∧ u.out = s.out ∧ busy u = false

/-- How ERR_OFFSET and the bytes consumed go together for each outcome, and that what is left of IN is its
end (43_codec_deserialize.md R192, R193). -/
def Obligations.OffsetsTellTheBytesConsumed : Prop :=
  ∀ s u : State, exec .deserialize s = .next u →
    ∃ c, s.inp = c ++ u.inp ∧
      ((u.code = .ok ∧ u.errOffset = 0 ∧ ∃ t, u.tree = some t ∧ c.length = 3 * t.leaves.length + 58) ∨
       (u.code = .unexpectedEndOfInput ∧ u.errOffset = c.length ∧ u.inp = []) ∨
       (u.code = .badHeaderSignature ∧ u.errOffset ≤ 29 ∧ c.length = 30) ∨
       (u.code = .invalidNodeTag ∧ 30 ≤ u.errOffset ∧ c.length = u.errOffset + 1) ∨
       (u.code = .capacityExceeded ∧ 30 ≤ u.errOffset ∧ c.length = u.errOffset + 1) ∨
       (u.code = .badFooterSignature ∧ u.errOffset < c.length ∧ c.length ≤ u.errOffset + 29))

/-! ### The wire tags -/

/-- TAG_ROOT: in the first position it opens the ROOT frame as one more node; in a later one it is
InvalidNodeTag, and at the node capacity CapacityExceeded, each at the tag's own offset
(30_encoding.md R88, 43_codec_deserialize.md R183, R186, R197). -/
def Obligations.TagRootTransition : Prop :=
  ∀ (s : State) (stack : List Frame), s.parse.phase = .tag stack →
    (stack = [] → s.cfg.nodeCapacity ≠ some s.parse.count →
      exec .tagRoot s = .next { s with parse :=
        ⟨.tag [⟨.root, none⟩], s.parse.off, s.parse.count + 1⟩ }) ∧
    (stack = [] → s.cfg.nodeCapacity = some s.parse.count →
      exec .tagRoot s = .next (ended .capacityExceeded { s with errOffset := s.parse.off - 1 })) ∧
    (stack ≠ [] →
      exec .tagRoot s = .next (ended .invalidNodeTag { s with errOffset := s.parse.off - 1 }))

/-- TAG_INTERNAL: in a later position it opens an INTERNAL frame as one more node; in the first it is
InvalidNodeTag, and at the node capacity CapacityExceeded
(30_encoding.md R89, 43_codec_deserialize.md R183, R186, R197). -/
def Obligations.TagInternalTransition : Prop :=
  ∀ (s : State) (stack : List Frame), s.parse.phase = .tag stack →
    (stack ≠ [] → s.cfg.nodeCapacity ≠ some s.parse.count →
      exec .tagInternal s = .next { s with parse :=
        ⟨.tag (⟨.internal, none⟩ :: stack), s.parse.off, s.parse.count + 1⟩ }) ∧
    (stack ≠ [] → s.cfg.nodeCapacity = some s.parse.count →
      exec .tagInternal s = .next (ended .capacityExceeded { s with errOffset := s.parse.off - 1 })) ∧
    (stack = [] →
      exec .tagInternal s = .next (ended .invalidNodeTag { s with errOffset := s.parse.off - 1 }))

/-- TAG_LEAF: in a later position it is one more node and its symbol comes next; in the first it is
InvalidNodeTag, and at the node capacity CapacityExceeded
(30_encoding.md R91, 43_codec_deserialize.md R183, R186, R197). -/
def Obligations.TagLeafTransition : Prop :=
  ∀ (s : State) (stack : List Frame), s.parse.phase = .tag stack →
    (∀ f fs, stack = f :: fs → s.cfg.nodeCapacity ≠ some s.parse.count →
      exec .tagLeaf s = .next { s with parse := ⟨.sym f fs, s.parse.off, s.parse.count + 1⟩ }) ∧
    (stack ≠ [] → s.cfg.nodeCapacity = some s.parse.count →
      exec .tagLeaf s = .next (ended .capacityExceeded { s with errOffset := s.parse.off - 1 })) ∧
    (stack = [] →
      exec .tagLeaf s = .next (ended .invalidNodeTag { s with errOffset := s.parse.off - 1 }))

/-- TAG_INVALID: the command fails with InvalidNodeTag at the byte's offset, whatever the node count
(43_codec_deserialize.md R182, R183, R186). -/
def Obligations.TagInvalidFails : Prop :=
  ∀ (s : State) (stack : List Frame) (first : Bool) (b : Byte), s.parse.phase = .tag stack →
    exec (.tagInvalid first b) s =
      .next (ended .invalidNodeTag { s with errOffset := s.parse.off - 1 })

/-- A Leaf tag and the byte after it, whatever that byte is, take two steps and deliver Leaf(byte, 0) to the
stack; if IN ends after the tag the command fails with UnexpectedEndOfInput
(43_codec_deserialize.md R184, R197). -/
def Obligations.LeafTakesAnySymbol : Prop :=
  ∀ (s : State) (f : Frame) (fs : List Frame), s.cfg.valid = true →
    s.parse.phase = .tag (f :: fs) → s.cfg.nodeCapacity ≠ some s.parse.count →
    (∀ sym rest, s.inp = 0x01#8 :: sym :: rest →
      Host.Core.run Sys2Proof.core 2 s = .next { s with
        inp := rest
        parse := ⟨reduce f fs (.leaf sym 0), s.parse.off + 2, s.parse.count + 1⟩ }) ∧
    (s.inp = [0x01#8] →
      Host.Core.run Sys2Proof.core 2 s = .next (ended .unexpectedEndOfInput
        { s with inp := [], errOffset := s.parse.off + 1 }))

/-! ### Codes, frames, steps -/

/-- ILLEGAL sets STATUS.CODE to IllegalCommand and changes nothing else (60_exceptions.md R217). -/
def Obligations.IllegalChangesOnlyTheCode : Prop :=
  codeNumber .illegalCommand = 9#4 ∧
  ∀ (w : CmdWord) (s : State), exec (.illegal w) s = .next (ended .illegalCommand s)

/-- Which command can end with which code, by number as STATUS.CODE shows it: each ends with one of its own,
and each of those is met in some state with admissible parameters (60_exceptions.md R213). -/
def Obligations.CommandsEndWithTheirCodes : Prop :=
  numbersOf .clear = some [0#4] ∧ (∀ sym, numbersOf (.loadLeaf sym) = some [0#4, 7#4]) ∧
  numbersOf .build = some [0#4, 1#4, 8#4] ∧ numbersOf .derive = some [0#4, 6#4] ∧
  numbersOf .serialize = some [0#4, 6#4] ∧
  numbersOf .deserialize = some [0#4, 2#4, 3#4, 4#4, 5#4, 7#4] ∧
  (∀ w, numbersOf (.illegal w) = some [9#4]) ∧
  ∀ (i : Instr) (cs : List Code), commandCodes i = some cs →
    (∀ s u : State, exec i s = .next u → u.code ∈ cs) ∧
    ∀ c ∈ cs, ∃ s u : State, s.cfg.valid = true ∧ exec i s = .next u ∧ u.code = c

/-- Every command ends in a next state from every state, and so does every step with admissible parameters
(60_exceptions.md R227). -/
def Obligations.EveryStepAnswers : Prop :=
  (∀ (i : Instr) (s : State), commandCodes i ≠ none → ∃ t, exec i s = .next t) ∧
  ∀ s : State, s.cfg.valid = true → ∃ t, step s = .next t

/-- With both capacities unbounded no command reports CapacityExceeded (00_scope.md R8). -/
def Obligations.UnboundedIsNeverFull : Prop :=
  ∀ (i : Instr) (s t : State), commandCodes i ≠ none → s.cfg.candCapacity = none →
    s.cfg.nodeCapacity = none → exec i s = .next t → t.code ≠ .capacityExceeded

/-- The frame of every instruction: what each leaves unchanged when it answers a next state. The operand
registers and parameters always stay; OUT changes under SERIALIZE only and only by appending; IN under
DESERIALIZE only and only from its front; ERR_OFFSET under DESERIALIZE and the tags only; CAND under CLEAR,
LOAD_LEAF and BUILD only; TREE under CLEAR, BUILD and DESERIALIZE only; MAP under these and DERIVE only
(10_state.md R24 to R26, R34, R35, R41). -/
def Obligations.InstructionFrames : Prop :=
  ∀ (i : Instr) (s t : State), exec i s = .next t →
    keepsOperands s t ∧
    (i ≠ .serialize → t.out = s.out) ∧ s.out <+: t.out ∧
    (i ≠ .deserialize → t.inp = s.inp) ∧ t.inp <:+ s.inp ∧
    (i ≠ .deserialize → commandCodes i ≠ none → t.errOffset = s.errOffset) ∧
    (i ≠ .clear → (∀ sym, i ≠ .loadLeaf sym) → i ≠ .build → t.cand = s.cand) ∧
    (i ≠ .clear → i ≠ .build → i ≠ .deserialize → t.tree = s.tree) ∧
    (i ≠ .clear → i ≠ .build → i ≠ .deserialize → i ≠ .derive →
      t.map = s.map ∧ t.mapValid = s.mapValid)

/-- With no command running, a step whose oldest host action is a write to CMD is the run of the decoded
word, that action taken off the list (00_scope.md R10, 30_encoding.md R80). That a value of 2^16 or more
issues the word of its low 16 bits is the model's choice (Log 4). -/
def Obligations.StepRunsTheCommand : Prop :=
  ∀ (s : State) (val : Nat) (rest : List HostAct), s.cfg.valid = true → s.parse.phase = .idle →
    s.host = .write 0 val :: rest →
    step s = exec (decodeCommand (BitVec.ofNat 16 val)) { s with host := rest }

/-- With a DESERIALIZE waiting for a tag, a step is the run of the decoded byte, consumed and counted; the
position is the first exactly when the stack is empty (43_codec_deserialize.md R197). -/
def Obligations.StepRunsTheTag : Prop :=
  ∀ (s : State) (stack : List Frame) (b : Byte) (rest : List Byte), s.cfg.valid = true →
    s.parse.phase = .tag stack → s.inp = b :: rest →
    step s = exec (decodeTag stack.isEmpty b)
      { s with inp := rest, parse := { s.parse with off := s.parse.off + 1 } }

/-- With no command running and nothing pending a step changes nothing: idle is final
(70_reset_and_hazards.md R259). -/
def Obligations.IdleIsFinal : Prop :=
  ∀ s : State, s.cfg.valid = true → s.parse.phase = .idle → s.host = [] → step s = .next s

/-- What each host action but a CMD write does between commands: register writes store or are ignored,
reads do nothing, IN is replaced or extended, OUT drained or replaced, reset asserted
(70_reset_and_hazards.md R252, R240). That WEIGHT and MAP_SYM hold the low bits of a value wider than
they are is the model's choice (Log 4), and so is that the remaining host actions, the parameters and
the record of codes stay at a reset (Log 2, Log 10), as `assertReset` has it. -/
def Obligations.HostActionsBetweenCommands : Prop :=
  ∀ (s : State) (a : HostAct) (rest : List HostAct), s.cfg.valid = true → s.parse.phase = .idle →
    s.host = a :: rest →
    (∀ reg val, a = .write reg val → reg ≠ 0 →
      step s = .next { s with
        host := rest
        weight := if reg = 1 then val % 2 ^ s.cfg.weightBits else s.weight
        mapSym := if reg = 5 then BitVec.ofNat 8 val else s.mapSym }) ∧
    (∀ reg, a = .read reg → step s = .next { s with host := rest }) ∧
    (∀ bs, a = .replaceIn bs → step s = .next { s with host := rest, inp := bs }) ∧
    (∀ bs, a = .extendIn bs → step s = .next { s with host := rest, inp := s.inp ++ bs }) ∧
    (∀ n, a = .drainOut n → step s = .next { s with host := rest, out := s.out.drop n }) ∧
    (∀ bs, a = .replaceOut bs → step s = .next { s with host := rest, out := bs }) ∧
    (a = .reset → step s = .next (assertReset { s with host := rest }))

/-- A write to CMD while BUSY = 1 changes nothing (70_reset_and_hazards.md R247). -/
def Obligations.BusyDropsTheCommand : Prop :=
  ∀ (s : State) (val : Nat), busy s = true → hostAct (.write 0 val) s = .done s

/-- `LOAD_LEAF sym, weight` assembles to a write to WEIGHT and one to CMD, and the two steps load that leaf
(30_encoding.md R98). -/
def Obligations.LoadLeafLineLoadsTheLeaf : Prop :=
  ∀ (s : State) (sym : Byte) (w : Nat) (rest : List HostAct), s.cfg.valid = true → atRest s →
    w < 2 ^ s.cfg.weightBits → s.cfg.candCapacity ≠ some s.cand.length →
    s.host = assemble (.loadLeaf sym w) ++ rest →
    Host.Core.run Sys2Proof.core 2 s = .next (ended .ok
      { s with host := rest, weight := w, cand := s.cand ++ [.leaf sym w] })

/-! ### Invariants -/

/-- Every step keeps the invariant: TREE is a Root over Root-free subtrees, CAND holds fitting leaves, MAP is
the tree's table or empty, a running DESERIALIZE holds neither and its stack and count agree, and no tree
outgrows NODE_CAPACITY (10_state.md R24, R25, R26, R28; 43_codec_deserialize.md R196). -/
def Obligations.StepsKeepTheInvariant : Prop :=
  ∀ s t : State, s.Inv → step s = .next t → t.Inv

/-- The state after reset meets the invariant. -/
def Obligations.ResetMeetsTheInvariant : Prop :=
  State.reset.Inv

/-- From a state with no command running every step ends with none running: BUSY reads 0 at every point the
host can observe (00_scope.md R10, 60_exceptions.md R223). -/
def Obligations.StepsEndAtRest : Prop :=
  ∀ s t : State, atRest s → step s = .next t → atRest t ∧ busy t = false

/-- No step changes the parameters, and the run's record only grows
(00_scope.md R7, 70_reset_and_hazards.md R259). -/
def Obligations.StepsKeepParametersAndRecord : Prop :=
  ∀ s t : State, step s = .next t → t.cfg = s.cfg ∧ s.codes <+: t.codes

/-! ### Registers and reset -/

/-- The numbers of the ten codes, the STATUS fields, and that register 2 reads them with no command running
(60_exceptions.md R211, 10_state.md R31). -/
def Obligations.StatusFields : Prop :=
  codeNumber .ok = 0#4 ∧ codeNumber .emptyFrequencyTable = 1#4 ∧
  codeNumber .unexpectedEndOfInput = 2#4 ∧ codeNumber .badHeaderSignature = 3#4 ∧
  codeNumber .badFooterSignature = 4#4 ∧ codeNumber .invalidNodeTag = 5#4 ∧ codeNumber .noTree = 6#4 ∧
  codeNumber .capacityExceeded = 7#4 ∧ codeNumber .weightOverflow = 8#4 ∧
  codeNumber .illegalCommand = 9#4 ∧
  ∀ s : State, (busy s = false → readReg s 2 = (status s).toNat) ∧
    (status s).extractLsb' 0 4 = codeNumber s.code ∧ (status s).getLsbD 4 = treeValid s ∧
    (status s).getLsbD 5 = s.mapValid ∧ (status s).getLsbD 6 = busy s ∧
    ∀ i, 7 ≤ i → (status s).getLsbD i = false

/-- The MAP port with no command running, at a NODE_CAPACITY whose CODE_MAX_BITS is at most 255: an absent
entry reads all zeros; a present one reads PRESENT, its length, and its bits at their places
(10_state.md R33). -/
def Obligations.MapPortShowsTheEntry : Prop :=
  ∀ (s : State) (n : Nat), busy s = false → s.cfg.codeMaxBits = some n → n ≤ 255 →
    (mapEntry s s.mapSym = none → readReg s 6 = 0 ∧ ∀ k, k < 8 → readReg s (8 + k) = 0) ∧
    (∀ c, mapEntry s s.mapSym = some c → c.length ≤ n →
      readReg s 6 = 2 ^ 15 + c.length ∧
      ∀ k, k < 8 → readReg s (8 + k) = (mapBits s k).toNat ∧
        ∀ j, j < 32 → (mapBits s k).getLsbD j = c.getD (32 * k + j) false)

/-- The plain registers: WEIGHT and MAP_SYM return what was written, within their widths (a wider value is
the model's choice, Log 4); CMD, register 7 and numbers past the MAP_BITS registers read 0; plain writes to
any other register store nothing; CAND_COUNT and ERR_OFFSET read the length and the offset
(10_state.md R30, R32, R34, R35). -/
def Obligations.RegisterReadsAndWrites : Prop :=
  ∀ (s : State) (val : Nat),
    readReg (writeReg s 1 val) 1 = val % 2 ^ s.cfg.weightBits ∧
    readReg (writeReg s 5 val) 5 = val % 256 ∧
    readReg s 0 = 0 ∧ readReg s 7 = 0 ∧
    (∀ reg, 8 + mapBitsRegisters s.cfg ≤ reg → readReg s reg = 0) ∧
    (∀ reg, reg ≠ 1 → reg ≠ 5 → writeReg s reg val = s) ∧
    (busy s = false → s.cand.length < 2 ^ 16 → readReg s 4 = s.cand.length) ∧
    (busy s = false → s.errOffset < 2 ^ 32 → readReg s 3 = s.errOffset)

/-- Asserting reset puts every piece of engine state at the value R42 lists, in any state, and does not
touch IN or OUT (10_state.md R42, 70_reset_and_hazards.md R240, R241). -/
def Obligations.ResetValues : Prop :=
  ∀ s : State, hostAct .reset s = .done (assertReset s) ∧
    (assertReset s).cand = [] ∧ (assertReset s).tree = none ∧
    treeValid (assertReset s) = false ∧ (∀ sym, mapEntry (assertReset s) sym = none) ∧
    (assertReset s).mapValid = false ∧ (assertReset s).code = .ok ∧ busy (assertReset s) = false ∧
    (assertReset s).errOffset = 0 ∧ (assertReset s).weight = 0 ∧ (assertReset s).mapSym = 0#8 ∧
    (assertReset s).inp = s.inp ∧ (assertReset s).out = s.out ∧
    (∀ reg, readReg (assertReset s) reg = 0)

/-- After CLEAR the engine's state is the one after reset, except that WEIGHT, MAP_SYM and ERR_OFFSET stay
(10_state.md R42); the model's record gains the command's code. -/
def Obligations.ClearIsResetButForOperands : Prop :=
  ∀ s : State, exec .clear s = .next { assertReset s with
    weight := s.weight
    mapSym := s.mapSym
    errOffset := s.errOffset
    codes := s.codes ++ [.ok] }
end

