-- ==== Sys2Proof/Laws/State.lean ====
section
/-! SUPPORT. One lemma per field per named update of State, each true by rfl, so that no proof unfolds a
record update. -/

namespace Sys2Proof.Machine

/-! ### dropTree: BUILD, DESERIALIZE and CLEAR begin so (92_eei_decisions.md D18) -/

@[simp] theorem dropTree_cfg (s : State) : (dropTree s).cfg = s.cfg := rfl
@[simp] theorem dropTree_cand (s : State) : (dropTree s).cand = s.cand := rfl
@[simp] theorem dropTree_tree (s : State) : (dropTree s).tree = none := rfl
@[simp] theorem dropTree_map (s : State) : (dropTree s).map = [] := rfl
@[simp] theorem dropTree_mapValid (s : State) : (dropTree s).mapValid = false := rfl
@[simp] theorem dropTree_code (s : State) : (dropTree s).code = s.code := rfl
@[simp] theorem dropTree_errOffset (s : State) : (dropTree s).errOffset = s.errOffset := rfl
@[simp] theorem dropTree_weight (s : State) : (dropTree s).weight = s.weight := rfl
@[simp] theorem dropTree_mapSym (s : State) : (dropTree s).mapSym = s.mapSym := rfl
@[simp] theorem dropTree_inp (s : State) : (dropTree s).inp = s.inp := rfl
@[simp] theorem dropTree_out (s : State) : (dropTree s).out = s.out := rfl
@[simp] theorem dropTree_parse (s : State) : (dropTree s).parse = s.parse := rfl
@[simp] theorem dropTree_host (s : State) : (dropTree s).host = s.host := rfl
@[simp] theorem dropTree_codes (s : State) : (dropTree s).codes = s.codes := rfl

/-! ### finish: the end of a command (60_exceptions.md R215) -/

@[simp] theorem finish_cfg (c : Code) (s : State) : (finish c s).cfg = s.cfg := rfl
@[simp] theorem finish_cand (c : Code) (s : State) : (finish c s).cand = s.cand := rfl
@[simp] theorem finish_tree (c : Code) (s : State) : (finish c s).tree = s.tree := rfl
@[simp] theorem finish_map (c : Code) (s : State) : (finish c s).map = s.map := rfl
@[simp] theorem finish_mapValid (c : Code) (s : State) : (finish c s).mapValid = s.mapValid := rfl
@[simp] theorem finish_code (c : Code) (s : State) : (finish c s).code = c := rfl
@[simp] theorem finish_errOffset (c : Code) (s : State) : (finish c s).errOffset = s.errOffset := rfl
@[simp] theorem finish_weight (c : Code) (s : State) : (finish c s).weight = s.weight := rfl
@[simp] theorem finish_mapSym (c : Code) (s : State) : (finish c s).mapSym = s.mapSym := rfl
@[simp] theorem finish_inp (c : Code) (s : State) : (finish c s).inp = s.inp := rfl
@[simp] theorem finish_out (c : Code) (s : State) : (finish c s).out = s.out := rfl
@[simp] theorem finish_parse (c : Code) (s : State) : (finish c s).parse = Parse.idle := rfl
@[simp] theorem finish_host (c : Code) (s : State) : (finish c s).host = s.host := rfl
@[simp] theorem finish_codes (c : Code) (s : State) : (finish c s).codes = s.codes ++ [c] := rfl

/-! ### failAt: a failed DESERIALIZE (60_exceptions.md R215) -/

@[simp] theorem failAt_cfg (c : Code) (o : Nat) (s : State) : (failAt c o s).cfg = s.cfg := rfl
@[simp] theorem failAt_cand (c : Code) (o : Nat) (s : State) : (failAt c o s).cand = s.cand := rfl
@[simp] theorem failAt_tree (c : Code) (o : Nat) (s : State) : (failAt c o s).tree = s.tree := rfl
@[simp] theorem failAt_map (c : Code) (o : Nat) (s : State) : (failAt c o s).map = s.map := rfl
@[simp] theorem failAt_mapValid (c : Code) (o : Nat) (s : State) : (failAt c o s).mapValid = s.mapValid := rfl
@[simp] theorem failAt_code (c : Code) (o : Nat) (s : State) : (failAt c o s).code = c := rfl
@[simp] theorem failAt_errOffset (c : Code) (o : Nat) (s : State) : (failAt c o s).errOffset = o := rfl
@[simp] theorem failAt_weight (c : Code) (o : Nat) (s : State) : (failAt c o s).weight = s.weight := rfl
@[simp] theorem failAt_mapSym (c : Code) (o : Nat) (s : State) : (failAt c o s).mapSym = s.mapSym := rfl
@[simp] theorem failAt_inp (c : Code) (o : Nat) (s : State) : (failAt c o s).inp = s.inp := rfl
@[simp] theorem failAt_out (c : Code) (o : Nat) (s : State) : (failAt c o s).out = s.out := rfl
@[simp] theorem failAt_parse (c : Code) (o : Nat) (s : State) : (failAt c o s).parse = Parse.idle := rfl
@[simp] theorem failAt_host (c : Code) (o : Nat) (s : State) : (failAt c o s).host = s.host := rfl
@[simp] theorem failAt_codes (c : Code) (o : Nat) (s : State) : (failAt c o s).codes = s.codes ++ [c] := rfl

/-! ### goPhase: another phase of the DESERIALIZE machine (43_codec_deserialize.md R197) -/

@[simp] theorem goPhase_cfg (p : Phase) (s : State) : (goPhase p s).cfg = s.cfg := rfl
@[simp] theorem goPhase_cand (p : Phase) (s : State) : (goPhase p s).cand = s.cand := rfl
@[simp] theorem goPhase_tree (p : Phase) (s : State) : (goPhase p s).tree = s.tree := rfl
@[simp] theorem goPhase_map (p : Phase) (s : State) : (goPhase p s).map = s.map := rfl
@[simp] theorem goPhase_mapValid (p : Phase) (s : State) : (goPhase p s).mapValid = s.mapValid := rfl
@[simp] theorem goPhase_code (p : Phase) (s : State) : (goPhase p s).code = s.code := rfl
@[simp] theorem goPhase_errOffset (p : Phase) (s : State) : (goPhase p s).errOffset = s.errOffset := rfl
@[simp] theorem goPhase_weight (p : Phase) (s : State) : (goPhase p s).weight = s.weight := rfl
@[simp] theorem goPhase_mapSym (p : Phase) (s : State) : (goPhase p s).mapSym = s.mapSym := rfl
@[simp] theorem goPhase_inp (p : Phase) (s : State) : (goPhase p s).inp = s.inp := rfl
@[simp] theorem goPhase_out (p : Phase) (s : State) : (goPhase p s).out = s.out := rfl
@[simp] theorem goPhase_parse (p : Phase) (s : State) : (goPhase p s).parse = { s.parse with phase := p } := rfl
@[simp] theorem goPhase_host (p : Phase) (s : State) : (goPhase p s).host = s.host := rfl
@[simp] theorem goPhase_codes (p : Phase) (s : State) : (goPhase p s).codes = s.codes := rfl

/-! ### outWrite: OutWrite (20_memory.md R65) -/

@[simp] theorem outWrite_cfg (bs : List Byte) (s : State) : (outWrite bs s).cfg = s.cfg := rfl
@[simp] theorem outWrite_cand (bs : List Byte) (s : State) : (outWrite bs s).cand = s.cand := rfl
@[simp] theorem outWrite_tree (bs : List Byte) (s : State) : (outWrite bs s).tree = s.tree := rfl
@[simp] theorem outWrite_map (bs : List Byte) (s : State) : (outWrite bs s).map = s.map := rfl
@[simp] theorem outWrite_mapValid (bs : List Byte) (s : State) : (outWrite bs s).mapValid = s.mapValid := rfl
@[simp] theorem outWrite_code (bs : List Byte) (s : State) : (outWrite bs s).code = s.code := rfl
@[simp] theorem outWrite_errOffset (bs : List Byte) (s : State) : (outWrite bs s).errOffset = s.errOffset := rfl
@[simp] theorem outWrite_weight (bs : List Byte) (s : State) : (outWrite bs s).weight = s.weight := rfl
@[simp] theorem outWrite_mapSym (bs : List Byte) (s : State) : (outWrite bs s).mapSym = s.mapSym := rfl
@[simp] theorem outWrite_inp (bs : List Byte) (s : State) : (outWrite bs s).inp = s.inp := rfl
@[simp] theorem outWrite_out (bs : List Byte) (s : State) : (outWrite bs s).out = s.out ++ bs := rfl
@[simp] theorem outWrite_parse (bs : List Byte) (s : State) : (outWrite bs s).parse = s.parse := rfl
@[simp] theorem outWrite_host (bs : List Byte) (s : State) : (outWrite bs s).host = s.host := rfl
@[simp] theorem outWrite_codes (bs : List Byte) (s : State) : (outWrite bs s).codes = s.codes := rfl

/-! ### startDeserialize: IDLE to HDR (43_codec_deserialize.md R175, R195) -/

@[simp] theorem startDeserialize_cfg (s : State) : (startDeserialize s).cfg = s.cfg := rfl
@[simp] theorem startDeserialize_cand (s : State) : (startDeserialize s).cand = s.cand := rfl
@[simp] theorem startDeserialize_tree (s : State) : (startDeserialize s).tree = none := rfl
@[simp] theorem startDeserialize_map (s : State) : (startDeserialize s).map = [] := rfl
@[simp] theorem startDeserialize_mapValid (s : State) : (startDeserialize s).mapValid = false := rfl
@[simp] theorem startDeserialize_code (s : State) : (startDeserialize s).code = s.code := rfl
@[simp] theorem startDeserialize_errOffset (s : State) : (startDeserialize s).errOffset = 0 := rfl
@[simp] theorem startDeserialize_weight (s : State) : (startDeserialize s).weight = s.weight := rfl
@[simp] theorem startDeserialize_mapSym (s : State) : (startDeserialize s).mapSym = s.mapSym := rfl
@[simp] theorem startDeserialize_inp (s : State) : (startDeserialize s).inp = s.inp := rfl
@[simp] theorem startDeserialize_out (s : State) : (startDeserialize s).out = s.out := rfl
@[simp] theorem startDeserialize_parse (s : State) : (startDeserialize s).parse = ⟨.hdr [], 0, 0⟩ := rfl
@[simp] theorem startDeserialize_host (s : State) : (startDeserialize s).host = s.host := rfl
@[simp] theorem startDeserialize_codes (s : State) : (startDeserialize s).codes = s.codes := rfl

/-! ### assertReset: reset (10_state.md R42) -/

@[simp] theorem assertReset_cfg (s : State) : (assertReset s).cfg = s.cfg := rfl
@[simp] theorem assertReset_cand (s : State) : (assertReset s).cand = [] := rfl
@[simp] theorem assertReset_tree (s : State) : (assertReset s).tree = none := rfl
@[simp] theorem assertReset_map (s : State) : (assertReset s).map = [] := rfl
@[simp] theorem assertReset_mapValid (s : State) : (assertReset s).mapValid = false := rfl
@[simp] theorem assertReset_code (s : State) : (assertReset s).code = .ok := rfl
@[simp] theorem assertReset_errOffset (s : State) : (assertReset s).errOffset = 0 := rfl
@[simp] theorem assertReset_weight (s : State) : (assertReset s).weight = 0 := rfl
@[simp] theorem assertReset_mapSym (s : State) : (assertReset s).mapSym = 0#8 := rfl
@[simp] theorem assertReset_inp (s : State) : (assertReset s).inp = s.inp := rfl
@[simp] theorem assertReset_out (s : State) : (assertReset s).out = s.out := rfl
@[simp] theorem assertReset_parse (s : State) : (assertReset s).parse = Parse.idle := rfl
@[simp] theorem assertReset_host (s : State) : (assertReset s).host = s.host := rfl
@[simp] theorem assertReset_codes (s : State) : (assertReset s).codes = s.codes := rfl

end Sys2Proof.Machine
end

