-- ==== Sys2Proof/Laws/Ops.lean ====
section
/-! SUPPORT. What each shared operation can do, said once: the streams, the MAP table and its canonical
form, comparing signatures, taking a tag, MAP_INFO. -/

namespace Sys2Proof.Machine

/-! ### The streams -/

@[simp] theorem inRead_nil {s : State} (h : s.inp = []) : inRead s = none := by
  simp [inRead, h]

theorem inRead_cons {s : State} {b : Byte} {rest : List Byte} (h : s.inp = b :: rest) :
    inRead s = some (b, { s with inp := rest, parse := { s.parse with off := s.parse.off + 1 } }) := by
  simp [inRead, h]

/-- A read either meets the end of the stream or takes the front byte, counts it, and changes nothing
else (20_memory.md R62). -/
theorem inRead_cases (s : State) :
    (s.inp = [] ∧ inRead s = none) ∨
      ∃ b rest, s.inp = b :: rest ∧ inRead s =
        some (b, { s with inp := rest, parse := { s.parse with off := s.parse.off + 1 } }) := by
  cases h : s.inp with
  | nil => exact .inl ⟨rfl, inRead_nil h⟩
  | cons b rest => exact .inr ⟨b, rest, rfl, inRead_cons h⟩

/-- `InReadN` answers the front `n` bytes exactly when IN holds that many (20_memory.md R63). -/
theorem inReadN_eq_some {n : Nat} {inp front rest : List Byte} :
    inReadN n inp = some (front, rest) ↔ front.length = n ∧ inp = front ++ rest := by
  unfold inReadN
  constructor
  · intro h
    split at h
    · rename_i hn
      simp only [Option.some.injEq, Prod.mk.injEq] at h
      obtain ⟨rfl, rfl⟩ := h
      simp [hn]
    · simp at h
  · rintro ⟨rfl, rfl⟩
    simp

theorem inReadN_eq_none {n : Nat} {inp : List Byte} : inReadN n inp = none ↔ inp.length < n := by
  unfold inReadN
  split <;> simp_all

/-! ### The MAP table -/

@[simp] theorem mapGet_nil (sym : Byte) : mapGet [] sym = none := rfl

/-- Reading a table after one entry was written. -/
theorem mapGet_mapSet (m : List (Byte × Bits)) (sym other : Byte) (c : Bits) :
    mapGet (mapSet m sym c) other = if sym = other then some c else mapGet m other := by
  induction m with
  | nil => simp [mapSet, mapGet]
  | cons kd m ih =>
    obtain ⟨k, d⟩ := kd
    by_cases hlt : sym.toNat < k.toNat
    · simp [mapSet, hlt, mapGet]
    · by_cases hk : sym = k
      · subst hk
        by_cases ho : sym = other <;> simp [mapSet, mapGet, ho]
      · by_cases ho : sym = other
        · subst ho
          simp [mapSet, hlt, hk, mapGet, ih, Ne.symm hk]
        · simp [mapSet, hlt, hk, mapGet, ih, ho]

/-- Every entry of a table after a write is the written one or was there before. -/
theorem mem_mapSet {m : List (Byte × Bits)} {sym : Byte} {c : Bits} {e : Byte × Bits}
    (h : e ∈ mapSet m sym c) : e = (sym, c) ∨ e ∈ m := by
  induction m with
  | nil => simpa [mapSet] using h
  | cons kd m ih =>
    obtain ⟨k, d⟩ := kd
    unfold mapSet at h
    split at h
    · simp_all
    · split at h
      · rcases List.mem_cons.1 h with h | h
        · exact .inl h
        · exact .inr (List.mem_cons_of_mem _ h)
      · rcases List.mem_cons.1 h with h | h
        · exact .inr (h ▸ List.mem_cons_self ..)
        · exact (ih h).imp id (List.mem_cons_of_mem _)

/-- A write keeps the canonical form. -/
theorem mapSet_wf {m : List (Byte × Bits)} (h : mapWf m) (sym : Byte) (c : Bits) :
    mapWf (mapSet m sym c) := by
  induction m with
  | nil => simp [mapSet]
  | cons kd m ih =>
    obtain ⟨k, d⟩ := kd
    obtain ⟨hk, hm⟩ := List.pairwise_cons.1 h
    unfold mapSet
    split
    · rename_i hlt
      refine List.pairwise_cons.2 ⟨fun e he => ?_, h⟩
      rcases List.mem_cons.1 he with rfl | he
      · exact hlt
      · exact lt_trans hlt (hk e he)
    · rename_i hlt
      split
      · rename_i heq
        subst heq
        exact List.pairwise_cons.2 ⟨hk, hm⟩
      · rename_i hne
        refine List.pairwise_cons.2 ⟨fun e he => ?_, ih hm⟩
        rcases mem_mapSet he with rfl | he
        · have : sym.toNat ≠ k.toNat := fun hh => hne (BitVec.eq_of_toNat_eq hh)
          show k.toNat < sym.toNat
          omega
        · exact hk e he

/-- An absent symbol is below or above every key. -/
theorem mapGet_eq_none_of_lt {m : List (Byte × Bits)} {sym : Byte}
    (h : ∀ e ∈ m, sym.toNat < e.1.toNat) : mapGet m sym = none := by
  induction m with
  | nil => rfl
  | cons kd m ih =>
    obtain ⟨k, d⟩ := kd
    have hk : k ≠ sym := fun hh => by
      have := h (k, d) (List.mem_cons_self ..)
      simp [hh] at this
    rw [mapGet, if_neg hk]
    exact ih fun e he => h e (List.mem_cons_of_mem _ he)

/-- In canonical form equal contents are equal data. -/
theorem mapGet_ext {m m' : List (Byte × Bits)} (h : mapWf m) (h' : mapWf m')
    (e : ∀ sym, mapGet m sym = mapGet m' sym) : m = m' := by
  induction m generalizing m' with
  | nil =>
    cases m' with
    | nil => rfl
    | cons kd m' => simpa [mapGet] using e kd.1
  | cons kd m ih =>
    obtain ⟨k, d⟩ := kd
    cases m' with
    | nil => simpa [mapGet] using e k
    | cons kd' m' =>
      obtain ⟨k', d'⟩ := kd'
      obtain ⟨hk, hm⟩ := List.pairwise_cons.1 h
      obtain ⟨hk', hm'⟩ := List.pairwise_cons.1 h'
      have hkk : k = k' := by
        by_contra hne
        rcases Nat.lt_or_gt_of_ne (fun hh => hne (BitVec.eq_of_toNat_eq hh)) with hlt | hlt
        · have e1 := e k
          rw [mapGet, if_pos rfl, mapGet, if_neg (Ne.symm hne),
            mapGet_eq_none_of_lt fun x hx => lt_trans hlt (hk' x hx)] at e1
          simp at e1
        · have e1 := e k'
          rw [mapGet, if_neg hne, mapGet, if_pos rfl,
            mapGet_eq_none_of_lt fun x hx => lt_trans hlt (hk x hx)] at e1
          simp at e1
      subst hkk
      have hd : d = d' := by simpa [mapGet] using e k
      subst hd
      rw [ih hm hm' fun sym => ?_]
      by_cases hs : k = sym
      · subst hs
        rw [mapGet_eq_none_of_lt hk, mapGet_eq_none_of_lt hk']
      · simpa [mapGet, hs] using e sym

/-! ### Comparing signatures -/

/-- No position differs exactly when the two are equal, for signatures of one length. -/
theorem firstDiff_eq_none {a b : List Byte} (h : a.length = b.length) :
    firstDiff a b = none ↔ a = b := by
  induction a generalizing b with
  | nil => cases b <;> simp_all [firstDiff]
  | cons x a ih =>
    cases b with
    | nil => simp at h
    | cons y b =>
      by_cases hxy : x = y
      · simp [firstDiff, hxy, ih (by simpa using h)]
      · simp [firstDiff, hxy]

/-- The position answered is the least one where the two differ (43_codec_deserialize.md R180). -/
theorem firstDiff_eq_some {a b : List Byte} {k : Nat} (h : firstDiff a b = some k) :
    a.take k = b.take k ∧ ∃ x y, a[k]? = some x ∧ b[k]? = some y ∧ x ≠ y := by
  induction a generalizing b k with
  | nil => simp [firstDiff] at h
  | cons x a ih =>
    cases b with
    | nil => simp [firstDiff] at h
    | cons y b =>
      by_cases hxy : x = y
      · rw [firstDiff, if_pos hxy] at h
        obtain ⟨j, hj, rfl⟩ := Option.map_eq_some_iff.1 h
        have := ih hj
        simpa [hxy] using this
      · rw [firstDiff, if_neg hxy] at h
        obtain rfl : 0 = k := by simpa using h
        exact ⟨by simp, x, y, by simp, by simp, hxy⟩

@[simp] theorem headerBytes_length : headerBytes.length = headerLength := rfl
@[simp] theorem footerBytes_length : footerBytes.length = footerLength := rfl

/-! ### Taking a tag -/

/-- All a tag can do (43_codec_deserialize.md R197): it is met only while the machine waits for one; it
fails by position or by capacity at its own offset, or is counted. -/
theorem takeTag_next {place : List Frame → Option Phase} {s t : State}
    (h : takeTag place s = .next t) :
    ∃ stack, s.parse.phase = .tag stack ∧
      ((place stack = none ∧ t = failAt .invalidNodeTag (s.parse.off - 1) s) ∨
        ∃ p, place stack = some p ∧
          ((s.cfg.nodeCapacity = some s.parse.count ∧
              t = failAt .capacityExceeded (s.parse.off - 1) s) ∨
            (s.cfg.nodeCapacity ≠ some s.parse.count ∧
              t = { s with parse := ⟨p, s.parse.off, s.parse.count + 1⟩ }))) := by
  unfold takeTag at h
  split at h
  · rename_i stack hs
    refine ⟨stack, hs, ?_⟩
    split at h
    · rename_i hp
      cases h
      exact .inl ⟨hp, rfl⟩
    · rename_i p hp
      refine .inr ⟨p, hp, ?_⟩
      split at h
      · rename_i hc
        cases h
        exact .inl ⟨hc, rfl⟩
      · rename_i hc
        cases h
        exact .inr ⟨hc, rfl⟩
  all_goals cases h

/-! ### The MAP port (10_state.md R33) -/

/-- LEN always has room for the length it shows (Log 21). -/
theorem lt_two_pow_lenBits (cfg : Config) (len : Nat) : len < 2 ^ lenBits cfg len :=
  calc len < 2 ^ (Nat.log2 len + 1) := Nat.lt_log2_self
    _ ≤ 2 ^ lenBits cfg len := by
      apply Nat.pow_le_pow_right (by omega)
      have : Nat.log2 len ≤ Nat.log2 (max (cfg.codeMaxBits.getD 0) len) := by
        rw [Nat.log2_eq_log_two, Nat.log2_eq_log_two]
        exact Nat.log_mono_right (le_max_right _ _)
      unfold lenBits
      omega

/-- LEN has the spec's 15 bits wherever they suffice. -/
theorem lenBits_of_small {cfg : Config} {len : Nat} (hc : cfg.codeMaxBits.getD 0 < 2 ^ 15)
    (hl : len < 2 ^ 15) : lenBits cfg len = 15 := by
  have : Nat.log2 (max (cfg.codeMaxBits.getD 0) len) < 15 := by
    rw [Nat.log2_eq_log_two]
    exact Nat.log_lt_of_lt_pow' (by omega) (max_lt hc hl)
  unfold lenBits
  omega

theorem mapInfo_absent {s : State} (h : mapEntry s s.mapSym = none) : mapInfo s = 0 := by
  simp [mapInfo, h]

/-- A present entry shows PRESENT above LEN, and LEN is the whole length. -/
theorem mapInfo_present {s : State} {c : Bits} (h : mapEntry s s.mapSym = some c) :
    mapInfo s % 2 ^ lenBits s.cfg c.length = c.length ∧
      mapInfo s / 2 ^ lenBits s.cfg c.length = 1 := by
  have hlt := lt_two_pow_lenBits s.cfg c.length
  simp only [mapInfo, h]
  exact ⟨by rw [Nat.add_mod_left, Nat.mod_eq_of_lt hlt],
    by rw [Nat.add_div_left _ (by omega), Nat.div_eq_of_lt hlt]⟩

end Sys2Proof.Machine
end

