-- ==== Sys2Proof/Laws/Tree.lean ====
section
/-! SUPPORT. The first facts about selection, the walk and the written body. -/

namespace Sys2Proof.Machine

/-! ### Selection -/

/-- The position answered by the scan for the least entry is in the list. -/
theorem leastEntry_eq_some {c : List Node} {k w : Nat} (h : leastEntry c = some (k, w)) :
    k < c.length ∧ weightAt c k = w := by
  induction c generalizing k w with
  | nil => simp [leastEntry] at h
  | cons x xs ih =>
    unfold leastEntry at h
    split at h
    · simp only [Option.some.injEq, Prod.mk.injEq] at h
      obtain ⟨rfl, rfl⟩ := h
      simp [weightAt]
    · rename_i k' w' hk
      split at h
      · simp only [Option.some.injEq, Prod.mk.injEq] at h
        obtain ⟨rfl, rfl⟩ := h
        simp [weightAt]
      · simp only [Option.some.injEq, Prod.mk.injEq] at h
        obtain ⟨rfl, rfl⟩ := h
        have := ih hk
        simp only [List.length_cons, weightAt, List.map_cons, List.getD_cons_succ] at this ⊢
        omega

theorem leastEntry_isSome {c : List Node} (h : c ≠ []) : (leastEntry c).isSome = true := by
  cases c with
  | nil => exact absurd rfl h
  | cons x xs =>
    unfold leastEntry
    split
    · rfl
    · split <;> rfl

theorem leastPos_lt {c : List Node} (h : c ≠ []) : leastPos c < c.length := by
  obtain ⟨⟨k, w⟩, hk⟩ := Option.isSome_iff_exists.1 (leastEntry_isSome h)
  simpa [leastPos, hk] using (leastEntry_eq_some hk).1

/-- Both selected positions are in a list of two or more, and they differ (40_tree_builder.md R115). -/
theorem select2_bounds {c : List Node} (h : 2 ≤ c.length) :
    (select2 c).1 < c.length ∧ (select2 c).2 < c.length ∧ (select2 c).1 ≠ (select2 c).2 := by
  have h1 : leastPos c < c.length := leastPos_lt (by rintro rfl; simp at h)
  have hl : (c.eraseIdx (leastPos c)).length = c.length - 1 := List.length_eraseIdx_of_lt h1
  have h2 := leastPos_lt (c := c.eraseIdx (leastPos c)) (by
    intro he
    rw [he] at hl
    simp at hl
    omega)
  rw [hl] at h2
  simp only [select2]
  split <;> omega

/-- A round takes two candidates away (40_tree_builder.md R119). -/
theorem pairOff_rest_length {c : List Node} (h : 2 ≤ c.length) :
    (pairOff c).rest.length + 2 = c.length := by
  obtain ⟨h1, h2, h3⟩ := select2_bounds h
  have hmax : max (select2 c).1 (select2 c).2 < c.length := by omega
  have hmin : min (select2 c).1 (select2 c).2 < c.length - 1 := by omega
  simp only [pairOff]
  rw [List.length_eraseIdx_of_lt (by rw [List.length_eraseIdx_of_lt hmax]; exact hmin),
    List.length_eraseIdx_of_lt hmax]
  omega

/-! ### The walk -/

/-- The walk keeps the table's canonical form. -/
theorem walk_wf (n : Node) (p : Bits) {m : List (Byte × Bits)} (h : mapWf m) : mapWf (walk n p m) := by
  induction n generalizing p m with
  | leaf sym w => exact mapSet_wf h sym p
  | internal l r w ihl ihr => exact ihr _ (ihl _ h)
  | root l r ihl ihr => exact ihr _ (ihl _ h)

theorem codeTable_wf (t : Node) : mapWf (codeTable t) := walk_wf t [] List.Pairwise.nil

/-! ### The written body -/

/-- A subtree's body is three bytes a leaf, less one (30_encoding.md R95). -/
theorem ser_length (n : Node) : (ser n).length + 1 = 3 * n.leaves.length := by
  induction n with
  | leaf sym w => simp [ser, Node.leaves]
  | internal l r w ihl ihr =>
    simp only [ser, Node.leaves, List.length_cons, List.length_append]
    omega
  | root l r ihl ihr =>
    simp only [ser, Node.leaves, List.length_cons, List.length_append]
    omega

@[simp] theorem unweighted_leaf (sym : Byte) (w : Nat) :
    (Node.leaf sym w).unweighted = .leaf sym 0 := rfl
@[simp] theorem unweighted_internal (l r : Node) (w : Nat) :
    (Node.internal l r w).unweighted = .internal l.unweighted r.unweighted 0 := rfl
@[simp] theorem unweighted_root (l r : Node) :
    (Node.root l r).unweighted = .root l.unweighted r.unweighted := rfl

end Sys2Proof.Machine
end

