-- ==== Sys2Proof/Laws/Codec.lean ====
section
/-! SUPPORT. What reading a container can do, said once: a parse that succeeds, a parse that fails, the
three phases, and the byte steps of the explicit machine. -/

namespace Sys2Proof.Machine

/-! ### The recursive parse -/

/-- Whether the parse takes a byte as a tag in a position (43_codec_deserialize.md R181). -/
theorem tag_accepted {first : Bool} {b : Byte}
    (h : ¬((first && b != tagRootByte) || (!first && b != tagInternalByte && b != tagLeafByte)) = true) :
    (first = true ∧ b = tagRootByte) ∨ (first = false ∧ (b = tagInternalByte ∨ b = tagLeafByte)) := by
  cases first
  · by_cases hi : b = tagInternalByte
    · exact .inr ⟨rfl, .inl hi⟩
    · by_cases hl : b = tagLeafByte
      · exact .inr ⟨rfl, .inr hl⟩
      · simp [hi, hl] at h
  · by_cases hr : b = tagRootByte
    · exact .inl ⟨rfl, hr⟩
    · simp [hr] at h

theorem tagRootByte_ne_leaf : tagRootByte ≠ tagLeafByte := by decide
theorem tagInternalByte_ne_leaf : tagInternalByte ≠ tagLeafByte := by decide
theorem tagInternalByte_ne_root : tagInternalByte ≠ tagRootByte := by decide

/-- All a successful parse can be: it consumed exactly the node's written form, counted its nodes, gave every
weight 0, and read a Root exactly in the first position (43_codec_deserialize.md R181, R185). -/
theorem parseNode_ok {capacity : Option Nat} {fuel : Nat} {first : Bool} {c c' : Cursor} {n : Node}
    (h : parseNode capacity fuel first c = .ok (n, c')) :
    c.inp = ser n ++ c'.inp ∧ c'.off = c.off + (ser n).length ∧ c'.count = c.count + n.nodes ∧
      n.unweighted = n ∧ (if first then n.isTree = true else n.rootFree = true) := by
  induction fuel generalizing first c c' n with
  | zero => simp [parseNode] at h
  | succ fuel ih =>
    unfold parseNode at h
    split at h
    · simp at h
    rename_i b rest hinp
    split at h
    · simp at h
    rename_i htag
    split at h
    · simp at h
    have hb := tag_accepted htag
    split at h
    · rename_i hleaf
      subst hleaf
      have hfirst : first = false := by
        rcases hb with ⟨-, hr⟩ | ⟨hf, -⟩
        · exact absurd hr.symm tagRootByte_ne_leaf
        · exact hf
      subst hfirst
      split at h
      · simp at h
      · cases h
        simp [hinp, ser, Node.nodes, Node.rootFree]
    · rename_i hleaf
      split at h
      · simp at h
      rename_i l c1 hl
      split at h
      · simp at h
      rename_i r c2 hr
      cases h
      obtain ⟨il, ol, nl, ul, rl⟩ := ih hl
      obtain ⟨ir, or', nr, ur, rr⟩ := ih hr
      simp only [Bool.false_eq_true, if_false] at rl rr
      simp only at il ol nl
      rcases hb with ⟨hf, hb⟩ | ⟨hf, hb⟩
      · subst hf hb
        refine ⟨?_, ?_, ?_, by simp [ul, ur], by simp [Node.isTree, rl, rr]⟩
        · simp [hinp, ser, il, ir]
        · simp only [if_true, ser, List.length_cons, List.length_append]
          omega
        · simp only [if_true, Node.nodes]
          omega
      · obtain rfl : b = tagInternalByte := hb.resolve_right hleaf
        subst hf
        simp only [if_neg tagInternalByte_ne_root, Bool.false_eq_true, if_false]
        refine ⟨?_, ?_, ?_, by simp [ul, ur], by simp [Node.rootFree, rl, rr]⟩
        · simp [hinp, ser, il, ir]
        · simp only [ser, List.length_cons, List.length_append]
          omega
        · simp only [Node.nodes]
          omega

/-- All a failed parse can be (43_codec_deserialize.md R192): the bytes left are an end of those before, and
the offset reported is the number consumed when the stream ended, else the offset of the tag, the last
byte consumed. The bound on the depth is met only where no byte is left. -/
theorem parseNode_error {capacity : Option Nat} {fuel : Nat} {first : Bool} {c : Cursor} {e : ReadError}
    (hfuel : c.inp.length ≤ fuel) (h : parseNode capacity fuel first c = .error e) :
    ∃ used, c.inp = used ++ e.inp ∧
      ((e.code = .unexpectedEndOfInput ∧ e.inp = [] ∧ e.offset = c.off + used.length) ∨
       ((e.code = .invalidNodeTag ∨ e.code = .capacityExceeded) ∧
          e.offset + 1 = c.off + used.length ∧ c.off ≤ e.offset)) := by
  induction fuel generalizing first c e with
  | zero =>
    have : c.inp = [] := List.length_eq_zero_iff.1 (by omega)
    unfold parseNode at h
    cases h
    exact ⟨[], by simp [this], by simp⟩
  | succ fuel ih =>
    unfold parseNode at h
    split at h
    · rename_i hinp
      cases h
      exact ⟨[], by simp [hinp], by simp⟩
    rename_i b rest hinp
    have hrest : rest.length ≤ fuel := by
      rw [hinp, List.length_cons] at hfuel
      omega
    split at h
    · cases h
      exact ⟨[b], by simp [hinp], by simp⟩
    split at h
    · cases h
      exact ⟨[b], by simp [hinp], by simp⟩
    split at h
    · split at h
      · cases h
        exact ⟨[b], by simp [hinp], by simp⟩
      · simp at h
    · split at h
      · rename_i e' he
        cases h
        obtain ⟨used, hu, hc⟩ := ih (c := ⟨rest, c.off + 1, c.count + 1⟩) hrest he
        refine ⟨b :: used, by simpa [hinp] using hu, ?_⟩
        simp only [List.length_cons] at hc ⊢
        rcases hc with ⟨h1, h2, h3⟩ | ⟨h1, h2, h3⟩
        · exact .inl ⟨h1, h2, by omega⟩
        · exact .inr ⟨h1, by omega, by omega⟩
      · rename_i l c1 hl
        obtain ⟨il, ol, -, -, -⟩ := parseNode_ok hl
        simp only at il ol
        split at h
        · rename_i e' he
          cases h
          have hlen : c1.inp.length ≤ fuel := by
            rw [il, List.length_append] at hrest
            omega
          obtain ⟨used, hu, hc⟩ := ih hlen he
          refine ⟨b :: (ser l ++ used), by simp [hinp, il, hu], ?_⟩
          simp only [List.length_cons, List.length_append]
          rcases hc with ⟨h1, h2, h3⟩ | ⟨h1, h2, h3⟩
          · exact .inl ⟨h1, h2, by omega⟩
          · exact .inr ⟨h1, by omega, by omega⟩
        · simp at h

/-! ### The three phases -/

/-- All a successful read can be: IN began with the container of the tree, whose weights are all 0
(43_codec_deserialize.md R189). -/
theorem readContainer_ok {capacity : Option Nat} {inp rest : List Byte} {t : Node}
    (h : readContainer capacity inp = .ok (t, rest)) :
    inp = container t ++ rest ∧ t.isTree = true ∧ t.unweighted = t := by
  unfold readContainer at h
  split at h
  · simp at h
  rename_i hd body hhd
  obtain ⟨hlen, rfl⟩ := inReadN_eq_some.1 hhd
  split at h
  · simp at h
  rename_i hdiff
  obtain rfl := (firstDiff_eq_none (by simpa using hlen)).1 hdiff
  split at h
  · simp at h
  rename_i n c hn
  obtain ⟨in', -, -, un, tn⟩ := parseNode_ok hn
  simp only at in'
  split at h
  · simp at h
  rename_i f rest' hf
  obtain ⟨flen, fin⟩ := inReadN_eq_some.1 hf
  split at h
  · simp at h
  rename_i fdiff
  obtain rfl := (firstDiff_eq_none (by simpa using flen)).1 fdiff
  cases h
  exact ⟨by simp [container, in', fin], by simpa using tn, un⟩

/-! ### The byte steps of the explicit machine (43_codec_deserialize.md R197) -/

/-- All that a byte, or the end of IN, can do in HDR. -/
theorem headerStep_cases (buf : List Byte) (s : State) :
    (s.inp = [] ∧ headerStep buf s = failAt .unexpectedEndOfInput s.parse.off s) ∨
      ∃ b rest, s.inp = b :: rest ∧
        let s1 := { s with inp := rest, parse := { s.parse with off := s.parse.off + 1 } }
        ((buf.length + 1 < headerLength ∧ headerStep buf s = goPhase (.hdr (buf ++ [b])) s1) ∨
          (headerLength ≤ buf.length + 1 ∧
            ((∃ k, firstDiff (buf ++ [b]) headerBytes = some k ∧
                headerStep buf s = failAt .badHeaderSignature k s1) ∨
              (firstDiff (buf ++ [b]) headerBytes = none ∧ headerStep buf s = goPhase (.tag []) s1)))) := by
  rcases inRead_cases s with ⟨hi, hr⟩ | ⟨b, rest, hi, hr⟩
  · exact .inl ⟨hi, by simp [headerStep, hr]⟩
  · refine .inr ⟨b, rest, hi, ?_⟩
    by_cases hl : buf.length + 1 < headerLength
    · exact .inl ⟨hl, by simp [headerStep, hr, hl]⟩
    · refine .inr ⟨by omega, ?_⟩
      cases hd : firstDiff (buf ++ [b]) headerBytes with
      | none => exact .inr ⟨rfl, by simp [headerStep, hr, hl, hd]⟩
      | some k => exact .inl ⟨k, rfl, by simp [headerStep, hr, hl, hd]⟩

/-- All that a byte, or the end of IN, can do in SYM. -/
theorem symbolStep_cases (top : Frame) (below : List Frame) (s : State) :
    (s.inp = [] ∧ symbolStep top below s = failAt .unexpectedEndOfInput s.parse.off s) ∨
      ∃ b rest, s.inp = b :: rest ∧ symbolStep top below s =
        goPhase (reduce top below (.leaf b 0))
          { s with inp := rest, parse := { s.parse with off := s.parse.off + 1 } } := by
  rcases inRead_cases s with ⟨hi, hr⟩ | ⟨b, rest, hi, hr⟩
  · exact .inl ⟨hi, by simp [symbolStep, hr]⟩
  · exact .inr ⟨b, rest, hi, by simp [symbolStep, hr]⟩

/-- All that a byte, or the end of IN, can do in FTR. -/
theorem footerStep_cases (t : Node) (buf : List Byte) (s : State) :
    (s.inp = [] ∧ footerStep t buf s = failAt .unexpectedEndOfInput s.parse.off s) ∨
      ∃ b rest, s.inp = b :: rest ∧
        let s1 := { s with inp := rest, parse := { s.parse with off := s.parse.off + 1 } }
        ((buf.length + 1 < footerLength ∧ footerStep t buf s = goPhase (.ftr t (buf ++ [b])) s1) ∨
          (footerLength ≤ buf.length + 1 ∧
            ((∃ k, firstDiff (buf ++ [b]) footerBytes = some k ∧ footerStep t buf s =
                failAt .badFooterSignature (s.parse.off + 1 - footerLength + k) s1) ∨
              (firstDiff (buf ++ [b]) footerBytes = none ∧
                footerStep t buf s = finish .ok { s1 with tree := some t })))) := by
  rcases inRead_cases s with ⟨hi, hr⟩ | ⟨b, rest, hi, hr⟩
  · exact .inl ⟨hi, by simp [footerStep, hr]⟩
  · refine .inr ⟨b, rest, hi, ?_⟩
    by_cases hl : buf.length + 1 < footerLength
    · exact .inl ⟨hl, by simp [footerStep, hr, hl]⟩
    · refine .inr ⟨by omega, ?_⟩
      cases hd : firstDiff (buf ++ [b]) footerBytes with
      | none => exact .inr ⟨rfl, by simp [footerStep, hr, hl, hd]⟩
      | some k => exact .inl ⟨k, rfl, by simp [footerStep, hr, hl, hd]⟩

/-- Delivering a node to a frame still without its left child, to the last frame, and to a frame above
others (R197). -/
@[simp] theorem reduce_left (k : FrameKind) (below : List Frame) (n : Node) :
    reduce ⟨k, none⟩ below n = .tag (⟨k, some n⟩ :: below) := by
  cases below <;> rfl
@[simp] theorem reduce_last (k : FrameKind) (l n : Node) :
    reduce ⟨k, some l⟩ [] n = .ftr (closeFrame k l n) [] := rfl
@[simp] theorem reduce_close (k : FrameKind) (l n : Node) (f : Frame) (fs : List Frame) :
    reduce ⟨k, some l⟩ (f :: fs) n = reduce f fs (closeFrame k l n) := rfl

/-- The nodes of a delivered subtree and of the stack it meets stay the same in number, and the phase that
comes holds what it should (R196, R197). -/
theorem reduce_counts (top : Frame) (below : List Frame) (n : Node) (off : Nat)
    (hs : stackOk (top :: below) = true) (hn : n.rootFree = true) :
    phaseOk ⟨reduce top below n, off, stackNodes (top :: below) + n.nodes⟩ = true := by
  induction below generalizing top n with
  | nil =>
    obtain ⟨k, l⟩ := top
    cases l with
    | none =>
      simp only [stackOk, Frame.leftOk, Bool.and_true, decide_eq_true_eq] at hs
      simp [phaseOk, stackOk, stackNodes, Frame.leftOk, hs, hn]
    | some l =>
      simp only [stackOk, Frame.leftOk, Bool.and_eq_true, decide_eq_true_eq] at hs
      obtain ⟨rfl, hl⟩ := hs
      simp [phaseOk, stackNodes, closeFrame, Node.isTree, Node.nodes, footerLength, hl, hn]
  | cons f fs ih =>
    obtain ⟨k, l⟩ := top
    simp only [stackOk, Bool.and_eq_true, decide_eq_true_eq] at hs
    obtain ⟨⟨rfl, hl⟩, hf⟩ := hs
    cases l with
    | none =>
      simp [phaseOk, stackOk, stackNodes, Frame.leftOk, hf, hn]
      omega
    | some l =>
      have hm : (closeFrame .internal l n).rootFree = true := by
        simpa [closeFrame, Node.rootFree, Frame.leftOk, hn] using hl
      have := ih f (closeFrame .internal l n) hf hm
      rw [reduce_close]
      convert this using 2
      simp [stackNodes, closeFrame, Node.nodes]
      omega

end Sys2Proof.Machine
end

