-- ==== Sys2Proof/Laws/PerInstr.lean ====
section
/-! SUPPORT. One lemma per constructor of Instr about its encoding: the rows of the opcode table that the
encoded unit matches are its own row and no other (30_encoding.md R82, R83, R92). -/

namespace Sys2Proof.Laws.TableMatch

/-- The mnemonics of the command rows with mask and match (30_encoding.md R82). -/
def commandRows : List (String × CmdWord × CmdWord) :=
  [("CLEAR", 0xffff#16, 0x0001#16), ("LOAD_LEAF", 0x00ff#16, 0x0002#16),
   ("BUILD", 0xffff#16, 0x0003#16), ("DERIVE", 0xffff#16, 0x0004#16),
   ("SERIALIZE", 0xffff#16, 0x0005#16), ("DESERIALIZE", 0xffff#16, 0x0006#16)]

/-- The wire-tag rows: whether the row's position is the first, and its byte (30_encoding.md R86, R92). -/
def tagRows : List (String × Bool × Byte) :=
  [("TAG_ROOT", true, 0xff#8), ("TAG_INTERNAL", false, 0x00#8), ("TAG_LEAF", false, 0x01#8)]

/-- The rows a unit of code matches. -/
def matchedRows : CodeUnit → List String
  | .word w => (commandRows.filter fun r => decide (w &&& r.2.1 = r.2.2)).map Prod.fst
  | .tag first b => (tagRows.filter fun r => decide (r.2 = (first, b))).map Prod.fst

/-- The row an instruction belongs to; ILLEGAL and TAG_INVALID are what no row matches. -/
def ownRows : Instr → List String
  | .clear => ["CLEAR"]
  | .loadLeaf _ => ["LOAD_LEAF"]
  | .build => ["BUILD"]
  | .derive => ["DERIVE"]
  | .serialize => ["SERIALIZE"]
  | .deserialize => ["DESERIALIZE"]
  | .illegal _ => []
  | .tagRoot => ["TAG_ROOT"]
  | .tagInternal => ["TAG_INTERNAL"]
  | .tagLeaf => ["TAG_LEAF"]
  | .tagInvalid _ _ => []

/-- A well-formed instruction's encoding matches its own row only. -/
def Statement (i : Instr) : Prop := i.wellFormed = true → matchedRows (encode i) = ownRows i

theorem clear : Statement .clear := fun _ => by decide

theorem loadLeaf (sym : Byte) : Statement (.loadLeaf sym) := fun _ => by
  revert sym
  decide

theorem build : Statement .build := fun _ => by decide
theorem derive : Statement .derive := fun _ => by decide
theorem serialize : Statement .serialize := fun _ => by decide
theorem deserialize : Statement .deserialize := fun _ => by decide

/-- The low byte of a word, read as a field and as a mask. -/
theorem opcField_eq_two {w : CmdWord} (h : w &&& 0x00ff#16 = 0x0002#16) : opcField w = 0x02#8 := by
  have h' := congrArg BitVec.toNat h
  have hm : w.toNat &&& 255 = w.toNat % 256 := Nat.and_two_pow_sub_one_eq_mod w.toNat 8
  apply BitVec.eq_of_toNat_eq
  simp only [BitVec.toNat_and, BitVec.toNat_ofNat, Nat.reducePow, Nat.reduceMod, hm] at h'
  simpa [opcField, BitVec.extractLsb'_toNat] using h'

theorem illegal (w : CmdWord) : Statement (.illegal w) := fun h => by
  have hw : illegalWord w = true := h
  have full : ∀ k : CmdWord, w &&& 0xffff#16 = k → w = k := fun k hk => by
    rw [← hk]
    exact (BitVec.and_allOnes (x := w)).symm
  have ne : ∀ k : CmdWord, illegalWord k = false → w &&& 0xffff#16 ≠ k := fun k hk he => by
    rw [full k he, hk] at hw
    cases hw
  have ne2 : w &&& 0x00ff#16 ≠ 0x0002#16 := fun he => by
    have := opcField_eq_two he
    simp [illegalWord, this] at hw
  simp [matchedRows, ownRows, encode, commandRows, ne 0x0001#16 (by decide), ne 0x0003#16 (by decide),
    ne 0x0004#16 (by decide), ne 0x0005#16 (by decide), ne 0x0006#16 (by decide), ne2]

theorem tagRoot : Statement .tagRoot := fun _ => by decide
theorem tagInternal : Statement .tagInternal := fun _ => by decide
theorem tagLeaf : Statement .tagLeaf := fun _ => by decide

theorem tagInvalid (first : Bool) (b : Byte) : Statement (.tagInvalid first b) := by
  revert first b
  unfold Statement
  decide

end Sys2Proof.Laws.TableMatch
end

