-- ==== Sys2Proof/Laws/Step.lean ====
section
/-! SUPPORT. What a host action and a step can do, said once. -/

namespace Sys2Proof.Machine

/-- All a host action can do (70_reset_and_hazards.md R252): a CMD write runs the decoded word unless a
command runs; every other action is done at once. -/
theorem hostAct_cases (a : HostAct) (s : State) :
    (∃ val, a = .write 0 val ∧ busy s = false ∧
        hostAct a s = .run (decodeCommand (BitVec.ofNat 16 val)) s) ∨
      (∃ val, a = .write 0 val ∧ busy s = true ∧ hostAct a s = .done s) ∨
      (∃ reg val, a = .write reg val ∧ reg ≠ 0 ∧ hostAct a s = .done (writeReg s reg val)) ∨
      (∃ reg, a = .read reg ∧ hostAct a s = .done s) ∨
      (∃ bs, a = .replaceIn bs ∧ hostAct a s = .done { s with inp := bs }) ∨
      (∃ bs, a = .extendIn bs ∧ hostAct a s = .done { s with inp := s.inp ++ bs }) ∨
      (∃ n, a = .drainOut n ∧ hostAct a s = .done { s with out := s.out.drop n }) ∨
      (∃ bs, a = .replaceOut bs ∧ hostAct a s = .done { s with out := bs }) ∨
      (a = .reset ∧ hostAct a s = .done (assertReset s)) := by
  cases a with
  | write reg val =>
    by_cases hr : reg = 0
    · subst hr
      cases hb : busy s
      · exact .inl ⟨val, rfl, rfl, by simp [hostAct, hb]⟩
      · exact .inr (.inl ⟨val, rfl, rfl, by simp [hostAct, hb]⟩)
    · exact .inr (.inr (.inl ⟨reg, val, rfl, hr, by simp [hostAct, hr]⟩))
  | read reg => simp [hostAct]
  | replaceIn bs => simp [hostAct]
  | extendIn bs => simp [hostAct]
  | drainOut n => simp [hostAct]
  | replaceOut bs => simp [hostAct]
  | reset => simp [hostAct]

/-- All that a write to a register other than CMD can do (10_state.md R30): WEIGHT or MAP_SYM takes the
value, or nothing changes. -/
theorem writeReg_cases (s : State) (reg val : Nat) :
    (reg = 1 ∧ writeReg s reg val = { s with weight := weightValue s.cfg val }) ∨
      (reg = 5 ∧ writeReg s reg val = { s with mapSym := BitVec.ofNat 8 val }) ∨
      (reg ≠ 1 ∧ reg ≠ 5 ∧ writeReg s reg val = s) := by
  unfold writeReg
  split
  · exact .inl ⟨rfl, rfl⟩
  · exact .inr (.inl ⟨rfl, rfl⟩)
  · rename_i h1 h5
    exact .inr (.inr ⟨h1, h5, rfl⟩)

/-- All that `fetch` can find, phase by phase. -/
theorem fetch_cases (s : State) :
    (s.parse.phase = .idle ∧ s.host = [] ∧ fetch s = .done s) ∨
      (∃ a rest, s.parse.phase = .idle ∧ s.host = a :: rest ∧
        fetch s = hostAct a { s with host := rest }) ∨
      (∃ buf, s.parse.phase = .hdr buf ∧ fetch s = .done (headerStep buf s)) ∨
      (∃ stack, s.parse.phase = .tag stack ∧ s.inp = [] ∧
        fetch s = .done (failAt .unexpectedEndOfInput s.parse.off s)) ∨
      (∃ stack b rest, s.parse.phase = .tag stack ∧ s.inp = b :: rest ∧
        fetch s = .run (decodeTag stack.isEmpty b)
          { s with inp := rest, parse := { s.parse with off := s.parse.off + 1 } }) ∨
      (∃ top below, s.parse.phase = .sym top below ∧ fetch s = .done (symbolStep top below s)) ∨
      (∃ t buf, s.parse.phase = .ftr t buf ∧ fetch s = .done (footerStep t buf s)) := by
  unfold fetch
  cases hp : s.parse.phase with
  | idle => cases hh : s.host <;> simp
  | hdr buf => simp
  | tag stack =>
    rcases inRead_cases s with ⟨hi, hr⟩ | ⟨b, rest, hi, hr⟩ <;> simp [hi, hr]
  | sym top below => simp
  | ftr t buf => simp

/-- A step that answers a next state had admissible parameters and either did what `fetch` found whole or
ran the instruction it found. -/
theorem step_next {s t : State} (h : step s = .next t) :
    s.cfg.valid = true ∧
      (fetch s = .done t ∨ ∃ i u, fetch s = .run i u ∧ exec i u = .next t) := by
  unfold step at h
  split at h
  · rename_i hv
    refine ⟨hv, ?_⟩
    split at h
    · rename_i u hu
      cases h
      exact .inl hu
    · rename_i i u hu
      exact .inr ⟨i, u, hu, h⟩
  · cases h

end Sys2Proof.Machine
end

