-- ==== Sys2Proof/Tests/Slice0.lean ====
section
/-! SUPPORT. Small tests from the spec's own vectors (95_test_vectors.md), the WellFormed smoke tests, and
for each statement with hypotheses a named witness that meets them. -/

namespace Sys2Proof.Tests

open Sys2Proof Sys2Proof.Machine

/-! ### Helpers -/

/-- The next state an outcome answers; the reset state for a stop. -/
def after (o : Host.Outcome State Fault Refusal) : State :=
  match o with
  | .next t => t
  | .fault _ => State.reset
  | .refused _ => State.reset

/-- Reset, with a candidate list. -/
def loaded (cs : List Node) : State := { State.reset with cand := cs }

/-- Reset, with a tree. -/
def holding (t : Node) : State := { State.reset with tree := some t }

/-- Reset, with bytes in IN. -/
def reading (bs : List Byte) : State := { State.reset with inp := bs }

/-- Reset, with NODE_CAPACITY 3 and CAND_CAPACITY 2, which admit each other. -/
def small : State := { State.reset with cfg := ⟨8, some 2, some 3⟩ }

/-- Waiting for a tag at offset 34, the tag consumed, with three nodes made: the stack of V-D15. -/
def midBody (stack : List Frame) (count : Nat) (cfg : Config) : State :=
  { State.reset with cfg := cfg, parse := ⟨.tag stack, 35, count⟩ }

def frameR : Frame := ⟨.root, none⟩

def leafA : Node := .leaf 0x61#8 5
def leafB : Node := .leaf 0x62#8 2
def leafC : Node := .leaf 0x63#8 1
def leafD : Node := .leaf 0x64#8 1

/-- V-B1's tree. -/
def treeB1 : Node := .root (.internal leafB (.internal leafC leafD 2) 4) leafA

/-- V-S1's body. -/
def bodyS1 : List Byte :=
  [0xff#8, 0x00#8, 0x01#8, 0x62#8, 0x00#8, 0x01#8, 0x63#8, 0x01#8, 0x64#8, 0x01#8, 0x61#8]

/-- C1, V-S1's container. -/
def c1 : List Byte := headerBytes ++ bodyS1 ++ footerBytes

/-! ### WellFormed: a term each check refuses -/

theorem smoke_illegal_legal_word : (Instr.illegal 0x0001#16).wellFormed = false := by decide
theorem smoke_illegal_load_word : (Instr.illegal 0x6102#16).wellFormed = false := by decide
theorem smoke_tagInvalid_first_root : (Instr.tagInvalid true 0xff#8).wellFormed = false := by decide
theorem smoke_tagInvalid_later_internal : (Instr.tagInvalid false 0x00#8).wellFormed = false := by decide
theorem smoke_tagInvalid_later_leaf : (Instr.tagInvalid false 0x01#8).wellFormed = false := by decide

/-! ### Decoding, by words written from 30_encoding.md R80, R82, R86: SYM in bits 15:8, OPC in 7:0 -/

theorem test_decode_clear : decodeCommand 0b0000000000000001#16 = .clear := by decide
theorem test_decode_loadLeaf : decodeCommand 0b0110000100000010#16 = .loadLeaf 0b01100001#8 := by decide
theorem test_decode_build : decodeCommand 0b0000000000000011#16 = .build := by decide
theorem test_decode_derive : decodeCommand 0b0000000000000100#16 = .derive := by decide
theorem test_decode_serialize : decodeCommand 0b0000000000000101#16 = .serialize := by decide
theorem test_decode_deserialize : decodeCommand 0b0000000000000110#16 = .deserialize := by decide
theorem test_decode_illegal : decodeCommand 0b0000000100000011#16 = .illegal 0x0103#16 := by decide
theorem test_decode_tagRoot : decodeTag true 0b11111111#8 = .tagRoot := by decide
theorem test_decode_tagInternal : decodeTag false 0b00000000#8 = .tagInternal := by decide
theorem test_decode_tagLeaf : decodeTag false 0b00000001#8 = .tagLeaf := by decide
theorem test_decode_tagInvalid : decodeTag false 0b11111110#8 = .tagInvalid false 0xfe#8 := by decide

/-- The rows of the opcode table, as the host numbers their bits. -/
theorem test_decode_table :
    decodeTableWord 16 0x6102 = some (.loadLeaf 0x61#8) ∧ decodeTableWord 8 0x02 = some (.loadLeaf 0#8) ∧
      decodeTableWord 8 0xff = some .tagRoot ∧ decodeTableWord 8 0x00 = some .tagInternal ∧
      decodeTableWord 8 0x01 = some .tagLeaf := by decide

/-! ### Encoding literals -/

/-- The signatures are the ASCII codes of the quoted strings (30_encoding.md R90, R94). -/
theorem test_header_text :
    headerBytes = "----- rxh tree start V2 -----\n".toList.map fun c => BitVec.ofNat 8 c.toNat := by decide
theorem test_footer_text :
    footerBytes = "\n----- rxh tree end V2 -----\n".toList.map fun c => BitVec.ofNat 8 c.toNat := by decide

/-! ### CLEAR, LOAD_LEAF -/

/-- V-L3: WEIGHT stays. -/
theorem test_clear_keeps_weight :
    (after (exec .clear { loaded [leafA, leafB] with weight := 2 })).cand = [] ∧
      (after (exec .clear { loaded [leafA, leafB] with weight := 2 })).weight = 2 := by decide

/-- V-L2: the new leaf goes to the end. -/
theorem test_loadLeaf_appends :
    (after (exec (.loadLeaf 0x62#8) { loaded [leafA] with weight := 2 })).cand = [leafA, leafB] := by
  decide

/-- V-L6: CapacityExceeded at CAND_CAPACITY = 2. -/
theorem test_loadLeaf_full :
    (after (exec (.loadLeaf 0x63#8) { small with cand := [leafA, leafB] })).code = .capacityExceeded ∧
      (after (exec (.loadLeaf 0x63#8) { small with cand := [leafA, leafB] })).cand = [leafA, leafB] := by
  decide

/-! ### BUILD -/

/-- V-B1, the document's scenario, with its selections. -/
theorem test_build_scenario :
    (after (exec .build (loaded [leafA, leafB, leafC, leafD]))).tree = some treeB1 ∧
      select2 [leafA, leafB, leafC, leafD] = (2, 3) := by decide

/-- V-B12: 100 + 200 does not fit eight bits. -/
theorem test_build_overflow :
    let s := { small with cand := [.leaf 0x61#8 200, .leaf 0x62#8 100, .leaf 0x63#8 255] }
    (after (exec .build s)).code = .weightOverflow ∧ (after (exec .build s)).tree = none ∧
      (after (exec .build s)).cand = [] := by decide

/-- V-B16: a three-way tie takes the leaf and the older Internal. -/
theorem test_build_ties :
    buildTree (2 ^ 64) [.leaf 0x61#8 2, .leaf 0x62#8 2, .leaf 0x63#8 2, .leaf 0x64#8 2, .leaf 0x65#8 4] =
      .ok (.root (.internal (.leaf 0x63#8 2) (.leaf 0x64#8 2) 4)
        (.internal (.leaf 0x65#8 4) (.internal (.leaf 0x61#8 2) (.leaf 0x62#8 2) 4) 8)) := by rfl

/-! ### DERIVE and the MAP port -/

/-- V-M1. -/
theorem test_derive_scenario :
    (after (exec .derive (holding treeB1))).map =
      [(0x61#8, [true]), (0x62#8, [false, false]), (0x63#8, [false, true, false]),
       (0x64#8, [false, true, true])] := by decide

/-- V-M3: the right leaf's path overwrites the left's. -/
theorem test_derive_repeated :
    (after (exec .derive (holding (.root leafA leafA)))).map = [(0x61#8, [true])] := by decide

/-- The MAP port after V-M1 with MAP_SYM = 'd': MAP_INFO = 0x8003, MAP_BITS0 = 6. -/
theorem test_map_port :
    let s := { after (exec .derive (holding treeB1)) with mapSym := 0x64#8 }
    readReg s 6 = 0x8003 ∧ readReg s 8 = 6 ∧ readReg s 9 = 0 ∧ readReg s 2 = 0x30 := by decide

/-! ### SERIALIZE -/

/-- V-S1. -/
theorem test_serialize_scenario : (after (exec .serialize (holding treeB1))).out = c1 := by decide

/-- V-S8. -/
theorem test_serialize_no_tree :
    (after (exec .serialize State.reset)).code = .noTree ∧
      (after (exec .serialize State.reset)).out = [] := by decide

/-! ### DESERIALIZE -/

/-- V-D1: two bytes stay in IN. -/
theorem test_deserialize_scenario :
    (after (exec .deserialize (reading (c1 ++ [0xaa#8, 0xbb#8])))).tree = some treeB1.unweighted ∧
      (after (exec .deserialize (reading (c1 ++ [0xaa#8, 0xbb#8])))).inp = [0xaa#8, 0xbb#8] := by decide

/-- V-D6: a tag of 2 at offset 34, 35 bytes left. -/
theorem test_deserialize_bad_tag :
    let s := after (exec .deserialize (reading (c1.set 34 0x02#8)))
    s.code = .invalidNodeTag ∧ s.errOffset = 34 ∧ s.inp.length = 35 ∧ s.tree = none := by decide

/-! ### The wire tags -/

/-- V-D5c's Leaf tag: the symbol is next. -/
theorem test_tagLeaf_waits_for_symbol :
    (after (exec .tagLeaf (midBody [frameR] 1 Config.recommended))).parse = ⟨.sym frameR [], 35, 2⟩ := by
  decide

/-- V-D15: the tag at offset 34 would begin node 4 of 3. -/
theorem test_tagLeaf_capacity :
    let s := after (exec .tagLeaf (midBody [frameR] 3 ⟨8, some 2, some 3⟩))
    s.code = .capacityExceeded ∧ s.errOffset = 34 := by decide

theorem test_tagRoot_opens :
    (after (exec .tagRoot (midBody [] 0 Config.recommended))).parse = ⟨.tag [frameR], 35, 1⟩ := by decide

/-- V-D8: 255 only in first place. -/
theorem test_tagRoot_late :
    (after (exec .tagRoot (midBody [frameR] 1 Config.recommended))).code = .invalidNodeTag := by decide

theorem test_tagInternal_opens :
    (after (exec .tagInternal (midBody [frameR] 1 Config.recommended))).parse =
      ⟨.tag [⟨.internal, none⟩, frameR], 35, 2⟩ := by decide

/-- R186: an invalid tag at the node capacity reports InvalidNodeTag. -/
theorem test_tagInvalid_before_capacity :
    (after (exec (.tagInvalid false 0x02#8) (midBody [frameR] 3 ⟨8, some 2, some 3⟩))).code =
      .invalidNodeTag := by decide

/-! ### ILLEGAL, the descent, the step -/

/-- V-E11: BUILD with SYM ≠ 0. -/
theorem test_illegal_keeps_cand :
    (after (exec (.illegal 0x0103#16) (loaded [leafA]))).code = .illegalCommand ∧
      (after (exec (.illegal 0x0103#16) (loaded [leafA]))).cand = [leafA] := by decide

/-- V-X2: the bits end inside the Internal at path `0`. -/
theorem test_descent_partial :
    descend treeB1 [false, true, false, false] =
      ([0x63#8], .internal leafB (.internal leafC leafD 2) 4) := by decide

/-- The placed instruction is the one the next step runs. -/
theorem test_step_runs_placed_command :
    (after (step (State.reset.withFetchWord 16 0x6102))).cand = [.leaf 0x61#8 0] := by decide

theorem test_step_runs_placed_tag :
    (after (step (State.reset.withFetchWord 8 0xff))).parse = ⟨.tag [frameR], 31, 1⟩ := by decide

/-! ### Witnesses: a state and operands that meet a statement's hypotheses -/

theorem witness_DecodeOfEncode :
    (Instr.illegal 0x0007#16).wellFormed = true ∧ (Instr.tagInvalid false 0x02#8).wellFormed = true ∧
      (Instr.tagInvalid true 0x00#8).wellFormed = true ∧ (Instr.loadLeaf 0xff#8).wellFormed = true := by
  decide

theorem witness_LoadLeafAppendsOrIsFull :
    { small with cand := [leafA] }.cfg.candCapacity ≠ some { small with cand := [leafA] }.cand.length ∧
      { small with cand := [leafA, leafB] }.cfg.candCapacity =
        some { small with cand := [leafA, leafB] }.cand.length := by decide

theorem witness_SelectionMeetsItsRule : 2 ≤ [leafA, leafB].length := by decide

theorem witness_BuildFollowsTheRounds :
    (loaded []).cand = [] ∧ (loaded [leafA]).cand = [leafA] ∧ 2 ≤ (loaded [leafA, leafB]).cand.length := by
  decide

theorem witness_OneSymbolTree : (loaded [leafA]).cand = [.leaf 0x61#8 5] := by decide

/-- The largest total that fits eight bits. -/
theorem witness_BuildSucceedsBelowTheLimit :
    let s := { small with cand := [.leaf 0x61#8 200, .leaf 0x62#8 55] }
    s.cand ≠ [] ∧ (s.cand.map Node.weight).sum < weightLimit s.cfg := by decide

theorem witness_LastPairIsNotSummed : (loaded [leafA, leafB]).cand = [leafA, leafB] := by decide

theorem witness_BuiltTreeShape :
    let s := loaded [leafA, leafB]
    2 ≤ s.cand.length ∧ s.cand.all (Node.isCandidate (weightLimit s.cfg)) = true ∧
      exec .build s = .next (after (exec .build s)) ∧
      (after (exec .build s)).tree = some (.root leafB leafA) := by
  exact ⟨by decide, by decide, rfl, by decide⟩

theorem witness_BuiltTreeHeight :
    let s := loaded [leafA, leafB, leafC]
    2 ≤ s.cand.length ∧ s.cand.all (Node.isCandidate (weightLimit s.cfg)) = true ∧
      exec .build s = .next (after (exec .build s)) ∧
      (after (exec .build s)).tree = some (.root (.internal leafC leafB 3) leafA) := by
  exact ⟨by decide, by decide, rfl, by decide⟩

theorem witness_ForwardScanSelectsTheSame : 2 ≤ [leafB, leafA].length := by decide

theorem witness_DeriveRecordsThePaths :
    (holding treeB1).tree = some treeB1 ∧ State.reset.tree = none := by decide

theorem witness_CodeWordsArePrefixFree :
    (0x61#8 : Byte) ≠ 0x62#8 ∧ mapGet (codeTable treeB1) 0x61#8 = some [true] ∧
      mapGet (codeTable treeB1) 0x62#8 = some [false, false] := by decide

theorem witness_TableCoversTheLoadedSymbols :
    let s := loaded [leafA]
    let u := after (exec .build s)
    s.cand ≠ [] ∧ s.cand.all (Node.isCandidate (weightLimit s.cfg)) = true ∧ (candSymbols s).Nodup ∧
      exec .build s = .next u ∧ u.code = .ok ∧ exec .derive u = .next (after (exec .derive u)) := by
  exact ⟨by decide, by decide, by decide, rfl, by decide, rfl⟩

theorem witness_CodeLengthsMeetKraft :
    treeB1.isTree = true ∧ mapGet (codeTable treeB1) 0x63#8 = some [false, true, false] ∧
      treeB1.symbols.Nodup := by decide

theorem witness_DescentInvertsEncoding :
    treeB1.isTree = true ∧ treeB1.symbols.Nodup ∧
      ∀ x ∈ [(0x61#8 : Byte), 0x64#8], (mapGet (codeTable treeB1) x).isSome = true := by decide

theorem witness_PortReachesEachCodeWord :
    (holding treeB1).tree = some treeB1 ∧ mapGet (codeTable treeB1) 0x61#8 = some [true] := by decide

theorem witness_WeightsPlayNoPart :
    treeB1.unweighted = treeB1.unweighted.unweighted ∧ treeB1 ≠ treeB1.unweighted := by decide

theorem witness_SerializeAppendsTheContainer :
    (holding (.root leafA leafB)).tree = some (.root leafA leafB) ∧ State.reset.tree = none := by decide

theorem witness_SerializedLength :
    (holding treeB1).tree = some treeB1 ∧ State.reset.tree = none := by decide

theorem witness_ContainerIsInjective :
    treeB1.isTree = true ∧ treeB1.unweighted.isTree = true ∧
      container treeB1 = container treeB1.unweighted := by decide

/-- The tree fills the node capacity exactly. -/
theorem witness_DeserializeRebuildsTheTree :
    let s := { small with inp := container (.root leafA leafB) ++ [0xaa#8] }
    (Node.root leafA leafB).isTree = true ∧ fitsCapacity (.root leafA leafB) s ∧
      s.inp = container (.root leafA leafB) ++ [0xaa#8] := by
  refine ⟨by decide, fun n h => ?_, rfl⟩
  cases h
  decide

theorem witness_SerializeReturnsTheBytes :
    let s := reading (container (.root leafA leafB))
    exec .deserialize s = .next (after (exec .deserialize s)) ∧
      (after (exec .deserialize s)).code = .ok := by
  exact ⟨rfl, by decide⟩

theorem witness_MachineAgreesWithRecursion : State.reset.cfg.valid = true := by decide

theorem witness_ShortHeaderFails : (reading (c1.take 29)).inp.length < 30 := by decide

theorem witness_BadHeaderFails :
    let h := headerBytes.set 29 0x00#8
    (reading (h ++ [0xff#8])).inp = h ++ [0xff#8] ∧ h.length = 30 ∧ h ≠ headerBytes := by decide

theorem witness_FirstTagMustBeRoot :
    (reading (headerBytes ++ 0x00#8 :: bodyS1)).inp = headerBytes ++ 0x00#8 :: bodyS1 ∧
      (0x00#8 : Byte) ≠ 0xff#8 := by decide

theorem witness_BadFooterFails :
    let t := Node.root leafA leafB
    let short := footerBytes.take 28
    let bad := footerBytes.set 28 0x00#8
    t.isTree = true ∧ fitsCapacity t { small with inp := headerBytes ++ ser t ++ short } ∧
      short.length < 29 ∧
      { small with inp := headerBytes ++ ser t ++ short }.inp = headerBytes ++ ser t ++ short ∧
      { small with inp := headerBytes ++ ser t ++ bad ++ [0xaa#8] }.inp =
        headerBytes ++ ser t ++ bad ++ [0xaa#8] ∧ bad.length = 29 ∧ bad ≠ footerBytes := by
  refine ⟨by decide, fun n h => ?_, by decide, rfl, rfl, by decide, by decide⟩
  cases h
  decide

theorem witness_FailedReadLeavesNoTree :
    exec .deserialize State.reset = .next (after (exec .deserialize State.reset)) ∧
      (after (exec .deserialize State.reset)).code ≠ .ok := by
  exact ⟨rfl, by decide⟩

theorem witness_OffsetsTellTheBytesConsumed :
    exec .deserialize State.reset = .next (after (exec .deserialize State.reset)) := rfl

/-- A place for the tag, a full node count, a wrong place. -/
theorem witness_TagRootTransition :
    (midBody [] 0 Config.recommended).parse.phase = .tag [] ∧
      Config.recommended.nodeCapacity ≠ some (midBody [] 510 Config.recommended).parse.count ∧
      Config.recommended.nodeCapacity = some (midBody [] 511 Config.recommended).parse.count ∧
      (midBody [frameR] 1 Config.recommended).parse.phase = .tag [frameR] ∧ [frameR] ≠ [] := by decide

theorem witness_TagInternalTransition :
    (midBody [frameR] 510 Config.recommended).parse.phase = .tag [frameR] ∧ [frameR] ≠ [] ∧
      Config.recommended.nodeCapacity ≠ some (midBody [frameR] 510 Config.recommended).parse.count ∧
      Config.recommended.nodeCapacity = some (midBody [frameR] 511 Config.recommended).parse.count ∧
      (midBody [] 0 Config.recommended).parse.phase = .tag [] := by decide

theorem witness_TagLeafTransition :
    (midBody [frameR] 2 ⟨8, some 2, some 3⟩).parse.phase = .tag [frameR] ∧ [frameR] = frameR :: [] ∧
      (some 3 : Option Nat) ≠ some (midBody [frameR] 2 ⟨8, some 2, some 3⟩).parse.count ∧
      (some 3 : Option Nat) = some (midBody [frameR] 3 ⟨8, some 2, some 3⟩).parse.count ∧
      (midBody [] 0 ⟨8, some 2, some 3⟩).parse.phase = .tag [] := by decide

theorem witness_TagInvalidFails :
    (midBody [frameR] 3 ⟨8, some 2, some 3⟩).parse.phase = .tag [frameR] := by decide

theorem witness_LeafTakesAnySymbol :
    let s := { midBody [frameR] 1 Config.recommended with inp := [0x01#8, 0xff#8] }
    let e := { midBody [frameR] 1 Config.recommended with inp := [0x01#8] }
    s.cfg.valid = true ∧ s.parse.phase = .tag [frameR] ∧ s.cfg.nodeCapacity ≠ some s.parse.count ∧
      s.inp = [0x01#8, 0xff#8] ∧ e.inp = [0x01#8] := by decide

theorem witness_CommandsEndWithTheirCodes :
    commandCodes .clear = some [.ok] ∧
      exec .clear State.reset = .next (after (exec .clear State.reset)) := ⟨rfl, rfl⟩

theorem witness_EveryStepAnswers :
    commandCodes .deserialize ≠ none ∧ State.reset.cfg.valid = true := by decide

theorem witness_UnboundedIsNeverFull :
    let s := { State.reset with cfg := ⟨64, none, none⟩ }
    commandCodes .deserialize ≠ none ∧ s.cfg.candCapacity = none ∧ s.cfg.nodeCapacity = none ∧
      exec .deserialize s = .next (after (exec .deserialize s)) := by
  exact ⟨by decide, rfl, rfl, rfl⟩

theorem witness_InstructionFrames :
    exec .serialize (holding treeB1) = .next (after (exec .serialize (holding treeB1))) ∧
      exec .tagRoot (midBody [] 0 Config.recommended) =
        .next (after (exec .tagRoot (midBody [] 0 Config.recommended))) := ⟨rfl, rfl⟩

theorem witness_StepRunsTheCommand :
    let s := { State.reset with host := [.write 0 0x6102] }
    s.cfg.valid = true ∧ s.parse.phase = .idle ∧ s.host = [.write 0 0x6102] := by decide

theorem witness_StepRunsTheTag :
    let s := { midBody [] 0 Config.recommended with inp := [0xff#8] }
    s.cfg.valid = true ∧ s.parse.phase = .tag [] ∧ s.inp = [0xff#8] := by decide

theorem witness_IdleIsFinal :
    State.reset.cfg.valid = true ∧ State.reset.parse.phase = .idle ∧ State.reset.host = [] := by decide

/-- One host action for each clause. -/
theorem witness_HostActionsBetweenCommands :
    ∀ a ∈ [HostAct.write 1 7, .write 5 255, .write 2 9, .read 2, .replaceIn [0xff#8], .extendIn [],
        .drainOut 3, .replaceOut [], .reset],
      let s := { State.reset with host := [a] }
      s.cfg.valid = true ∧ s.parse.phase = .idle ∧ s.host = [a] := by decide

theorem witness_BusyDropsTheCommand : busy (midBody [] 0 Config.recommended) = true := by decide

theorem witness_LoadLeafLineLoadsTheLeaf :
    let s := { small with host := assemble (.loadLeaf 0x61#8 255) ++ [] }
    s.cfg.valid = true ∧ atRest s ∧ 255 < 2 ^ s.cfg.weightBits ∧
      s.cfg.candCapacity ≠ some s.cand.length ∧ s.host = assemble (.loadLeaf 0x61#8 255) ++ [] := by
  decide

/-- A state of a run in which the DESERIALIZE machine is under way, beside the one at rest. -/
theorem witness_StepsKeepTheInvariant :
    let s := { State.reset with parse := ⟨.sym frameR [], 32, 2⟩, inp := [0x78#8] }
    s.Inv ∧ step s = .next (after (step s)) ∧ State.reset.Inv ∧
      step State.reset = .next (after (step State.reset)) := by
  exact ⟨by decide, rfl, by decide, rfl⟩

theorem witness_StepsEndAtRest :
    let s := { State.reset with host := [.write 0 6] }
    atRest s ∧ step s = .next (after (step s)) := by
  exact ⟨rfl, rfl⟩

theorem witness_StepsKeepParametersAndRecord :
    step State.reset = .next (after (step State.reset)) := rfl

theorem witness_StatusFields : busy State.reset = false := by decide

theorem witness_MapPortShowsTheEntry :
    let s := { holding treeB1 with map := codeTable treeB1, mapValid := true, mapSym := 0x61#8 }
    busy s = false ∧ s.cfg.codeMaxBits = some 255 ∧ 255 ≤ 255 ∧ mapEntry s s.mapSym = some [true] ∧
      [true].length ≤ 255 ∧ mapEntry { s with mapSym := 0x65#8 } 0x65#8 = none := by decide

theorem witness_RegisterReadsAndWrites :
    8 + mapBitsRegisters Config.recommended ≤ 16 ∧ busy State.reset = false ∧ State.reset.cand.length < 2 ^ 16 ∧
      State.reset.errOffset < 2 ^ 32 := by decide

end Sys2Proof.Tests
end

section
/-! PROOFS for the statements of 00_scope.md: what a command ends with, what a step keeps. -/

namespace Sys2Proof.Machine

/-! ### DESERIALIZE: a read that succeeds and one that fails (43_codec_deserialize.md R175, R192) -/

theorem afterRead_eq_finish (t : Option Node) (c : Code) (offset : Nat) (rest : List Byte) (s : State) :
    afterRead t c offset rest s =
      finish c { dropTree s with errOffset := offset, inp := rest, tree := t } := rfl

theorem execDeserialize_of_ok {s : State} {t : Node} {rest : List Byte}
    (h : readContainer s.cfg.nodeCapacity s.inp = .ok (t, rest)) :
    execDeserialize s = .next (afterRead (some t) .ok 0 rest s) := by
  simp only [execDeserialize, h]
  rfl

theorem execDeserialize_of_error {s : State} {e : ReadError}
    (h : readContainer s.cfg.nodeCapacity s.inp = .error e) :
    execDeserialize s = .next (afterRead none e.code e.offset e.inp s) := by
  simp only [execDeserialize, h]
  rfl

/-- A failed read of a container met the end of IN, a wrong signature, or failed in the body. -/
theorem readContainer_error {capacity : Option Nat} {inp : List Byte} {e : ReadError}
    (h : readContainer capacity inp = .error e) :
    e.code = .unexpectedEndOfInput ∨ e.code = .badHeaderSignature ∨ e.code = .badFooterSignature ∨
      ∃ body, parseNode capacity body.length true ⟨body, headerLength, 0⟩ = .error e := by
  unfold readContainer at h
  split at h
  · cases h
    exact .inl rfl
  rename_i body _
  split at h
  · cases h
    exact .inr (.inl rfl)
  split at h
  · rename_i hbody
    cases h
    exact .inr (.inr (.inr ⟨body, hbody⟩))
  split at h
  · cases h
    exact .inl rfl
  split at h
  · cases h
    exact .inr (.inr (.inl rfl))
  · cases h

/-- The parse refuses a node for want of room only where NODE_CAPACITY is finite (00_scope.md R8). -/
theorem parseNode_capacityExceeded {capacity : Option Nat} {fuel : Nat} {first : Bool} {c : Cursor}
    {e : ReadError} (h : parseNode capacity fuel first c = .error e) (he : e.code = .capacityExceeded) :
    capacity ≠ none := by
  induction fuel generalizing first c with
  | zero =>
    cases h
    cases he
  | succ fuel ih =>
    unfold parseNode at h
    split at h
    · cases h
      cases he
    split at h
    · cases h
      cases he
    split at h
    · rename_i hfull
      simp [hfull]
    split at h
    · split at h <;> cases h
      cases he
    split at h
    · rename_i hl
      cases h
      exact ih hl
    split at h
    · rename_i hr
      cases h
      exact ih hr
    · cases h

theorem readContainer_capacityExceeded {capacity : Option Nat} {inp : List Byte} {e : ReadError}
    (h : readContainer capacity inp = .error e) (he : e.code = .capacityExceeded) : capacity ≠ none := by
  rcases readContainer_error h with hc | hc | hc | ⟨body, hbody⟩
  · simp [hc] at he
  · simp [hc] at he
  · simp [hc] at he
  · exact parseNode_capacityExceeded hbody he

/-- The codes of a failed read are those DESERIALIZE can end with, `ok` apart (60_exceptions.md R213). -/
theorem readContainer_error_code {capacity : Option Nat} {inp : List Byte} {e : ReadError}
    (h : readContainer capacity inp = .error e) :
    e.code ∈ [Code.unexpectedEndOfInput, .badHeaderSignature, .badFooterSignature, .invalidNodeTag,
      .capacityExceeded] := by
  rcases readContainer_error h with hc | hc | hc | ⟨body, hbody⟩
  · simp [hc]
  · simp [hc]
  · simp [hc]
  · obtain ⟨_, -, hcodes⟩ := parseNode_error (Nat.le_refl body.length) hbody
    rcases hcodes with ⟨hc, -⟩ | ⟨hc | hc, -⟩ <;> simp [hc]

/-! ### BUILD's codes (40_tree_builder.md R117, R120) -/

theorem pairRounds_error {limit n : Nat} {c : List Node} {e : Code}
    (h : pairRounds limit n c = .error e) : e = .weightOverflow := by
  induction n generalizing c with
  | zero => cases h
  | succ n ih =>
    simp only [pairRounds] at h
    split at h
    · cases h
    split at h
    · cases h
      rfl
    · exact ih h

theorem buildTree_error {limit : Nat} {c : List Node} {e : Code} (h : buildTree limit c = .error e) :
    e = .emptyFrequencyTable ∨ e = .weightOverflow := by
  unfold buildTree at h
  split at h
  · cases h
    exact .inl rfl
  · cases h
  · exact .inr (pairRounds_error h)

/-! ### How a command ends -/

/-- The command is over (60_exceptions.md R215): it ended with one of the codes `cs`, after work that left
the operands, the parameters and the record of earlier codes alone. -/
def EndsWith (cs : List Code) (s : State) (o : Host.Outcome State Fault Refusal) : Prop :=
  ∃ c ∈ cs, ∃ u, o = .next (finish c u) ∧ keepsOperands s u ∧ u.codes = s.codes

theorem execLoadLeaf_endsWith (sym : Byte) (s : State) :
    EndsWith [.ok, .capacityExceeded] s (execLoadLeaf sym s) := by
  unfold execLoadLeaf
  split
  · exact ⟨.capacityExceeded, by simp, _, rfl, ⟨rfl, rfl, rfl, rfl⟩, rfl⟩
  · exact ⟨.ok, by simp, _, rfl, ⟨rfl, rfl, rfl, rfl⟩, rfl⟩

theorem execBuild_endsWith (s : State) :
    EndsWith [.ok, .emptyFrequencyTable, .weightOverflow] s (execBuild s) := by
  unfold execBuild
  dsimp only
  split
  · rename_i c hc
    exact ⟨c, by rcases buildTree_error hc with rfl | rfl <;> simp, _, rfl, ⟨rfl, rfl, rfl, rfl⟩, rfl⟩
  · exact ⟨.ok, by simp, _, rfl, ⟨rfl, rfl, rfl, rfl⟩, rfl⟩

theorem execDerive_endsWith (s : State) : EndsWith [.ok, .noTree] s (execDerive s) := by
  unfold execDerive
  split
  · exact ⟨.noTree, by simp, _, rfl, ⟨rfl, rfl, rfl, rfl⟩, rfl⟩
  · exact ⟨.ok, by simp, _, rfl, ⟨rfl, rfl, rfl, rfl⟩, rfl⟩

theorem execSerialize_endsWith (s : State) : EndsWith [.ok, .noTree] s (execSerialize s) := by
  unfold execSerialize
  split
  · exact ⟨.noTree, by simp, _, rfl, ⟨rfl, rfl, rfl, rfl⟩, rfl⟩
  · exact ⟨.ok, by simp, _, rfl, ⟨rfl, rfl, rfl, rfl⟩, rfl⟩

theorem execDeserialize_endsWith (s : State) :
    EndsWith [.ok, .unexpectedEndOfInput, .badHeaderSignature, .badFooterSignature, .invalidNodeTag,
      .capacityExceeded] s (execDeserialize s) := by
  cases h : readContainer s.cfg.nodeCapacity s.inp with
  | error e =>
    rw [execDeserialize_of_error h, afterRead_eq_finish]
    exact ⟨e.code, List.mem_cons_of_mem _ (readContainer_error_code h), _, rfl, ⟨rfl, rfl, rfl, rfl⟩, rfl⟩
  | ok r =>
    rw [execDeserialize_of_ok h, afterRead_eq_finish]
    exact ⟨.ok, by simp, _, rfl, ⟨rfl, rfl, rfl, rfl⟩, rfl⟩

/-- Every command ends with one of its own codes (60_exceptions.md R213), from every state. -/
theorem exec_endsWith {i : Instr} {cs : List Code} (hi : commandCodes i = some cs) (s : State) :
    EndsWith cs s (exec i s) := by
  cases i with
  | clear =>
    cases hi
    exact ⟨.ok, by simp, _, rfl, ⟨rfl, rfl, rfl, rfl⟩, rfl⟩
  | loadLeaf sym =>
    cases hi
    exact execLoadLeaf_endsWith sym s
  | build =>
    cases hi
    exact execBuild_endsWith s
  | derive =>
    cases hi
    exact execDerive_endsWith s
  | serialize =>
    cases hi
    exact execSerialize_endsWith s
  | deserialize =>
    cases hi
    exact execDeserialize_endsWith s
  | illegal w =>
    cases hi
    exact ⟨.illegalCommand, by simp, _, rfl, ⟨rfl, rfl, rfl, rfl⟩, rfl⟩
  | tagRoot => cases hi
  | tagInternal => cases hi
  | tagLeaf => cases hi
  | tagInvalid first b => cases hi

theorem exec_command_next {i : Instr} {cs : List Code} {s t : State} (hi : commandCodes i = some cs)
    (h : exec i s = .next t) :
    ∃ c ∈ cs, ∃ u, t = finish c u ∧ keepsOperands s u ∧ u.codes = s.codes := by
  obtain ⟨c, hc, u, hu, hk, hr⟩ := exec_endsWith hi s
  rw [h] at hu
  cases hu
  exact ⟨c, hc, u, rfl, hk, hr⟩

/-- What is no command is a wire tag (30_encoding.md R92). -/
theorem exec_tag {i : Instr} (hi : commandCodes i = none) (s : State) :
    ∃ place, exec i s = takeTag place s := by
  cases i with
  | clear => cases hi
  | loadLeaf sym => cases hi
  | build => cases hi
  | derive => cases hi
  | serialize => cases hi
  | deserialize => cases hi
  | illegal w => cases hi
  | tagRoot => exact ⟨_, rfl⟩
  | tagInternal => exact ⟨_, rfl⟩
  | tagLeaf => exact ⟨_, rfl⟩
  | tagInvalid first b => exact ⟨fun _ => none, rfl⟩

/-! ### CapacityExceeded (00_scope.md R8) -/

theorem execLoadLeaf_capacityExceeded {sym : Byte} {s t : State} (h : execLoadLeaf sym s = .next t)
    (ht : t.code = .capacityExceeded) : s.cfg.candCapacity = some s.cand.length := by
  by_contra hroom
  simp only [execLoadLeaf, if_neg hroom] at h
  cases h
  cases ht

theorem execDeserialize_capacityExceeded {s t : State} (h : execDeserialize s = .next t)
    (ht : t.code = .capacityExceeded) : s.cfg.nodeCapacity ≠ none := by
  cases hr : readContainer s.cfg.nodeCapacity s.inp with
  | error e =>
    rw [execDeserialize_of_error hr] at h
    cases h
    exact readContainer_capacityExceeded hr ht
  | ok r =>
    rw [execDeserialize_of_ok hr] at h
    cases h
    cases ht

/-- The commands whose list of codes has CapacityExceeded (60_exceptions.md R213). -/
theorem capacityExceeded_mem_commandCodes {i : Instr} {cs : List Code} (hi : commandCodes i = some cs)
    (hc : Code.capacityExceeded ∈ cs) : (∃ sym, i = .loadLeaf sym) ∨ i = .deserialize := by
  cases i <;> cases hi <;> simp at hc ⊢

/-- Settles O43: CapacityExceeded is a code of LOAD_LEAF and DESERIALIZE only, and each ends with it only
against a finite capacity. -/
theorem unboundedIsNeverFull : Obligations.UnboundedIsNeverFull := by
  intro i s t hi hcand hnode h ht
  obtain ⟨cs, hcs⟩ := Option.ne_none_iff_exists'.1 hi
  obtain ⟨c, hc, u, htu, -, -⟩ := exec_command_next hcs h
  obtain rfl : c = .capacityExceeded := by simpa [htu] using ht
  rcases capacityExceeded_mem_commandCodes hcs hc with ⟨sym, rfl⟩ | rfl
  · exact absurd (execLoadLeaf_capacityExceeded h ht) (by simp [hcand])
  · exact execDeserialize_capacityExceeded h ht hnode

/-! ### The host's turn: states with no command running -/

@[simp] theorem writeReg_parse (s : State) (reg val : Nat) : (writeReg s reg val).parse = s.parse := by
  rcases writeReg_cases s reg val with ⟨-, h⟩ | ⟨-, h⟩ | ⟨-, -, h⟩ <;> rw [h]
@[simp] theorem writeReg_cfg (s : State) (reg val : Nat) : (writeReg s reg val).cfg = s.cfg := by
  rcases writeReg_cases s reg val with ⟨-, h⟩ | ⟨-, h⟩ | ⟨-, -, h⟩ <;> rw [h]
@[simp] theorem writeReg_codes (s : State) (reg val : Nat) : (writeReg s reg val).codes = s.codes := by
  rcases writeReg_cases s reg val with ⟨-, h⟩ | ⟨-, h⟩ | ⟨-, -, h⟩ <;> rw [h]

/-- The command decoder answers commands only (30_encoding.md R83). -/
theorem decodeCommand_isCommand (w : CmdWord) : commandCodes (decodeCommand w) ≠ none := by
  unfold decodeCommand
  split_ifs <;> simp [commandCodes]

/-- A host action that runs an instruction is a CMD write, which hands the state on as it is. -/
theorem hostAct_run {a : HostAct} {s u : State} {i : Instr} (h : hostAct a s = .run i u) :
    u = s ∧ ∃ w, i = decodeCommand w := by
  rcases hostAct_cases a s with ⟨val, -, -, ha⟩ | ⟨_, -, -, ha⟩ | ⟨_, _, -, -, ha⟩ | ⟨_, -, ha⟩ |
    ⟨_, -, ha⟩ | ⟨_, -, ha⟩ | ⟨_, -, ha⟩ | ⟨_, -, ha⟩ | ⟨-, ha⟩ <;> rw [ha] at h <;> cases h
  exact ⟨rfl, _, rfl⟩

/-- A host action that is done at once keeps the parameters and the record, and starts no command: the
transient state stays, or goes to rest at a reset (70_reset_and_hazards.md R252, R240). -/
theorem hostAct_done {a : HostAct} {s t : State} (h : hostAct a s = .done t) :
    t.cfg = s.cfg ∧ t.codes = s.codes ∧ (t.parse = s.parse ∨ t.parse = Parse.idle) := by
  rcases hostAct_cases a s with ⟨val, -, -, ha⟩ | ⟨_, -, -, ha⟩ | ⟨_, _, -, -, ha⟩ | ⟨_, -, ha⟩ |
    ⟨_, -, ha⟩ | ⟨_, -, ha⟩ | ⟨_, -, ha⟩ | ⟨_, -, ha⟩ | ⟨-, ha⟩ <;> rw [ha] at h <;> cases h
  all_goals simp

theorem fetch_of_host_nil {s : State} (hp : s.parse.phase = .idle) (hh : s.host = []) :
    fetch s = .done s := by
  simp [fetch, hp, hh]

theorem fetch_of_host_cons {s : State} {a : HostAct} {rest : List HostAct}
    (hp : s.parse.phase = .idle) (hh : s.host = a :: rest) :
    fetch s = hostAct a { s with host := rest } := by
  simp [fetch, hp, hh]

theorem phase_of_atRest {s : State} (hs : atRest s) : s.parse.phase = .idle := by
  rw [hs, Parse.idle]

theorem busy_of_phase_idle {s : State} (hp : s.parse.phase = .idle) : busy s = false := by
  simp [busy, hp]

/-- Settles O45: with no command running BUSY is 0, so the CMD write is not dropped. -/
theorem stepRunsTheCommand : Obligations.StepRunsTheCommand := by
  intro s val rest hv hp hh
  have hb : busy { s with host := rest } = false := busy_of_phase_idle hp
  have hf : fetch s = .run (decodeCommand (BitVec.ofNat 16 val)) { s with host := rest } := by
    simp [fetch_of_host_cons hp hh, hostAct, hb]
  simp [step, hv, hf]

/-- From a state at rest, what is done without an instruction ends at rest. -/
theorem fetch_done_atRest {s t : State} (hs : atRest s) (h : fetch s = .done t) : atRest t := by
  have hp := phase_of_atRest hs
  cases hh : s.host with
  | nil =>
    rw [fetch_of_host_nil hp hh] at h
    cases h
    exact hs
  | cons a rest =>
    rw [fetch_of_host_cons hp hh] at h
    obtain ⟨-, -, ht⟩ := hostAct_done h
    exact ht.elim (fun h => h.trans hs) id

/-- From a state at rest, the instruction fetched is a command. -/
theorem fetch_run_isCommand {s u : State} {i : Instr} (hs : atRest s) (h : fetch s = .run i u) :
    commandCodes i ≠ none := by
  have hp := phase_of_atRest hs
  cases hh : s.host with
  | nil =>
    rw [fetch_of_host_nil hp hh] at h
    cases h
  | cons a rest =>
    rw [fetch_of_host_cons hp hh] at h
    obtain ⟨-, w, rfl⟩ := hostAct_run h
    exact decodeCommand_isCommand w

theorem exec_command_atRest {i : Instr} {s t : State} (hi : commandCodes i ≠ none)
    (h : exec i s = .next t) : atRest t := by
  obtain ⟨cs, hcs⟩ := Option.ne_none_iff_exists'.1 hi
  obtain ⟨c, -, u, rfl, -, -⟩ := exec_command_next hcs h
  exact finish_parse c u

/-- Settles O53: a step from rest is a host action done at once, or a whole command, and `finish` ends it. -/
theorem stepsEndAtRest : Obligations.StepsEndAtRest := by
  intro s t hs h
  have ht : atRest t := by
    obtain ⟨-, hd | ⟨i, u, hr, he⟩⟩ := step_next h
    · exact fetch_done_atRest hs hd
    · exact exec_command_atRest (fetch_run_isCommand hs hr) he
  exact ⟨ht, busy_of_phase_idle (phase_of_atRest ht)⟩

/-! ### The parameters and the record of codes (00_scope.md R7, 70_reset_and_hazards.md R259) -/

/-- The parameters are the same, and the record of `s` is an initial part of that of `t`. -/
def recordGrows (s t : State) : Prop := t.cfg = s.cfg ∧ s.codes <+: t.codes

theorem recordGrows_of_eq {s t : State} (hcfg : t.cfg = s.cfg) (hcodes : t.codes = s.codes) :
    recordGrows s t := ⟨hcfg, hcodes ▸ List.prefix_rfl⟩

theorem recordGrows_finish {s u : State} (c : Code) (hcfg : u.cfg = s.cfg) (hcodes : u.codes = s.codes) :
    recordGrows s (finish c u) :=
  ⟨hcfg, by simp [hcodes]⟩

theorem recordGrows_failAt {s u : State} (c : Code) (offset : Nat) (hcfg : u.cfg = s.cfg)
    (hcodes : u.codes = s.codes) : recordGrows s (failAt c offset u) :=
  recordGrows_finish c hcfg hcodes

theorem headerStep_recordGrows (buf : List Byte) (s : State) : recordGrows s (headerStep buf s) := by
  rcases headerStep_cases buf s with ⟨-, h⟩ | ⟨b, rest, -, ⟨-, h⟩ | ⟨-, ⟨k, -, h⟩ | ⟨-, h⟩⟩⟩ <;> rw [h]
  · exact recordGrows_failAt _ _ rfl rfl
  · exact recordGrows_of_eq rfl rfl
  · exact recordGrows_failAt _ _ rfl rfl
  · exact recordGrows_of_eq rfl rfl

theorem symbolStep_recordGrows (top : Frame) (below : List Frame) (s : State) :
    recordGrows s (symbolStep top below s) := by
  rcases symbolStep_cases top below s with ⟨-, h⟩ | ⟨b, rest, -, h⟩ <;> rw [h]
  · exact recordGrows_failAt _ _ rfl rfl
  · exact recordGrows_of_eq rfl rfl

theorem footerStep_recordGrows (t : Node) (buf : List Byte) (s : State) :
    recordGrows s (footerStep t buf s) := by
  rcases footerStep_cases t buf s with ⟨-, h⟩ | ⟨b, rest, -, ⟨-, h⟩ | ⟨-, ⟨k, -, h⟩ | ⟨-, h⟩⟩⟩ <;> rw [h]
  · exact recordGrows_failAt _ _ rfl rfl
  · exact recordGrows_of_eq rfl rfl
  · exact recordGrows_failAt _ _ rfl rfl
  · exact recordGrows_finish _ rfl rfl

theorem fetch_done_recordGrows {s t : State} (h : fetch s = .done t) : recordGrows s t := by
  rcases fetch_cases s with ⟨-, -, hf⟩ | ⟨a, rest, -, -, hf⟩ | ⟨buf, -, hf⟩ | ⟨stack, -, -, hf⟩ |
    ⟨stack, b, rest, -, -, hf⟩ | ⟨top, below, -, hf⟩ | ⟨n, buf, -, hf⟩ <;> rw [hf] at h
  · cases h
    exact recordGrows_of_eq rfl rfl
  · obtain ⟨hcfg, hcodes, -⟩ := hostAct_done h
    exact recordGrows_of_eq hcfg hcodes
  · cases h
    exact headerStep_recordGrows buf s
  · cases h
    exact recordGrows_failAt _ _ rfl rfl
  · cases h
  · cases h
    exact symbolStep_recordGrows top below s
  · cases h
    exact footerStep_recordGrows n buf s

/-- Fetching an instruction leaves the parameters and the record alone. -/
theorem fetch_run_keeps {s u : State} {i : Instr} (h : fetch s = .run i u) :
    u.cfg = s.cfg ∧ u.codes = s.codes := by
  rcases fetch_cases s with ⟨-, -, hf⟩ | ⟨a, rest, -, -, hf⟩ | ⟨buf, -, hf⟩ | ⟨stack, -, -, hf⟩ |
    ⟨stack, b, rest, -, -, hf⟩ | ⟨top, below, -, hf⟩ | ⟨n, buf, -, hf⟩ <;> rw [hf] at h
  · cases h
  · obtain ⟨rfl, -⟩ := hostAct_run h
    exact ⟨rfl, rfl⟩
  · cases h
  · cases h
  · cases h
    exact ⟨rfl, rfl⟩
  · cases h
  · cases h

theorem takeTag_recordGrows {place : List Frame → Option Phase} {s t : State}
    (h : takeTag place s = .next t) : recordGrows s t := by
  obtain ⟨stack, -, ⟨-, rfl⟩ | ⟨p, -, ⟨-, rfl⟩ | ⟨-, rfl⟩⟩⟩ := takeTag_next h
  · exact recordGrows_failAt _ _ rfl rfl
  · exact recordGrows_failAt _ _ rfl rfl
  · exact recordGrows_of_eq rfl rfl

theorem exec_recordGrows {i : Instr} {s t : State} (h : exec i s = .next t) : recordGrows s t := by
  cases hi : commandCodes i with
  | none =>
    obtain ⟨place, hplace⟩ := exec_tag hi s
    exact takeTag_recordGrows (hplace ▸ h)
  | some cs =>
    obtain ⟨c, -, u, rfl, ⟨hcfg, -⟩, hcodes⟩ := exec_command_next hi h
    exact recordGrows_finish c hcfg hcodes

/-- Settles O54: only the end of a command writes the record, and it appends; the reset action keeps it
(Log 10). -/
theorem stepsKeepParametersAndRecord : Obligations.StepsKeepParametersAndRecord := by
  intro s t h
  obtain ⟨-, hd | ⟨i, u, hr, he⟩⟩ := step_next h
  · exact fetch_done_recordGrows hd
  · obtain ⟨hcfg, hcodes⟩ := fetch_run_keeps hr
    obtain ⟨htcfg, htcodes⟩ := exec_recordGrows he
    exact ⟨htcfg.trans hcfg, hcodes ▸ htcodes⟩

end Sys2Proof.Machine
end

section
/-! PROOFS for the statements of 10_state.md: the invariant of the machine, what each instruction leaves
unchanged, the registers. -/

namespace Sys2Proof.Machine

/-! ### The tree BUILD makes (40_tree_builder.md R116, R119, R123) -/

/-- Two entries put before the list without them, the higher position removed first. -/
theorem getElem_cons_getElem_cons_eraseIdx_perm {l : List Node} {i j : Nat} (hi : i < l.length)
    (hji : j < i) : (l[i] :: l[j] :: (l.eraseIdx i).eraseIdx j).Perm l := by
  have hj : j < (l.eraseIdx i).length := by
    rw [List.length_eraseIdx_of_lt hi]
    omega
  rw [← List.getElem_eraseIdx_of_lt hj hji]
  exact ((List.getElem_cons_eraseIdx_perm hj).cons _).trans (List.getElem_cons_eraseIdx_perm hi)

/-- A round takes its pair out of the list and loses nothing. -/
theorem pairOff_perm {c : List Node} (h : 2 ≤ c.length) :
    ((pairOff c).smaller :: (pairOff c).bigger :: (pairOff c).rest).Perm c := by
  obtain ⟨hi, hj, hne⟩ := select2_bounds h
  simp only [pairOff, List.getD_eq_getElem c _ hi, List.getD_eq_getElem c _ hj]
  rcases Nat.lt_or_gt_of_ne hne with hlt | hlt
  · rw [max_eq_right hlt.le, min_eq_left hlt.le]
    exact (List.Perm.swap _ _ _).trans (getElem_cons_getElem_cons_eraseIdx_perm hj hlt)
  · rw [max_eq_left hlt.le, min_eq_right hlt.le]
    exact getElem_cons_getElem_cons_eraseIdx_perm hi hlt

/-- The loop of BUILD makes a tree of all the nodes it is given: each round adds one node and takes one off
the list. -/
theorem pairRounds_ok {limit n : Nat} {c : List Node} {t : Node} (hlen : c.length = n + 2)
    (hfree : ∀ x ∈ c, x.rootFree = true) (h : pairRounds limit n c = .ok t) :
    t.isTree = true ∧ t.nodes + 1 = (c.map Node.nodes).sum + c.length := by
  induction n generalizing c with
  | zero =>
    have hperm := pairOff_perm (c := c) (by omega)
    have hrest : (pairOff c).rest = [] := by
      have := pairOff_rest_length (c := c) (by omega)
      exact List.length_eq_zero_iff.1 (by omega)
    have hsum := (hperm.map Node.nodes).sum_eq
    obtain ⟨hs, hb⟩ : (pairOff c).smaller.rootFree = true ∧ (pairOff c).bigger.rootFree = true :=
      ⟨hfree _ (hperm.subset (by simp)), hfree _ (hperm.subset (by simp))⟩
    cases h
    simp only [hrest, List.map_cons, List.map_nil, List.sum_cons, List.sum_nil] at hsum
    refine ⟨by simp [Node.isTree, hs, hb], ?_⟩
    simp only [Node.nodes]
    omega
  | succ n ih =>
    have hperm := pairOff_perm (c := c) (by omega)
    have hrest := pairOff_rest_length (c := c) (by omega)
    have hsum := (hperm.map Node.nodes).sum_eq
    have hmem : ∀ x ∈ (pairOff c).smaller :: (pairOff c).bigger :: (pairOff c).rest, x.rootFree = true :=
      fun x hx => hfree x (hperm.subset hx)
    simp only [List.forall_mem_cons] at hmem
    obtain ⟨hs, hb, hr⟩ := hmem
    simp only [pairRounds] at h
    split at h
    · rename_i hnil
      rw [hnil, List.length_nil] at hrest
      omega
    split at h
    · cases h
    obtain ⟨htree, hnodes⟩ := ih (by rw [List.length_append, List.length_singleton]; omega)
      (by simpa [or_imp, forall_and, Node.rootFree, hs, hb] using hr) h
    refine ⟨htree, ?_⟩
    simp only [List.map_cons, List.sum_cons] at hsum
    simp only [List.map_append, List.sum_append, List.map_cons, List.map_nil, List.sum_cons, List.sum_nil,
      List.length_append, List.length_cons, List.length_nil, Node.nodes] at hnodes
    omega

theorem isCandidate_rootFree_nodes {limit : Nat} {x : Node} (h : x.isCandidate limit = true) :
    x.rootFree = true ∧ x.nodes = 1 := by
  cases x with
  | leaf sym w => exact ⟨rfl, rfl⟩
  | internal l r w => cases h
  | root l r => cases h

/-- A tree built from candidates is a Root over Root-free subtrees, of 2n − 1 nodes for n ≥ 2 candidates
and of 3 for one (40_tree_builder.md R118, R123). -/
theorem buildTree_ok {limit : Nat} {c : List Node} {t : Node}
    (hc : c.all (Node.isCandidate limit) = true) (h : buildTree limit c = .ok t) :
    t.isTree = true ∧ t.nodes = max 3 (2 * c.length - 1) := by
  have hcand : ∀ x ∈ c, x.rootFree = true ∧ x.nodes = 1 := fun x hx =>
    isCandidate_rootFree_nodes (List.all_eq_true.1 hc x hx)
  unfold buildTree at h
  split at h
  · cases h
  · rename_i x
    obtain ⟨hx, hn⟩ := hcand x (by simp)
    cases h
    simp [Node.isTree, Node.nodes, hx, hn]
  · rename_i x y zs
    have hones : ((x :: y :: zs).map Node.nodes).sum = (x :: y :: zs).length := by
      rw [List.map_congr_left fun x hx => (hcand x hx).2, List.map_const', List.sum_replicate, smul_eq_mul,
        mul_one]
    obtain ⟨htree, hnodes⟩ := pairRounds_ok (by simp) (fun x hx => (hcand x hx).1) h
    refine ⟨htree, ?_⟩
    rw [hones] at hnodes
    simp only [List.length_cons] at hnodes ⊢
    omega

/-! ### The tree DESERIALIZE reads (43_codec_deserialize.md R186) -/

/-- A parse never counts past NODE_CAPACITY. -/
theorem parseNode_count_le {n fuel : Nat} {first : Bool} {c c' : Cursor} {t : Node}
    (h : parseNode (some n) fuel first c = .ok (t, c')) (hc : c.count ≤ n) : c'.count ≤ n := by
  induction fuel generalizing first c c' t with
  | zero => cases h
  | succ fuel ih =>
    unfold parseNode at h
    split at h
    · cases h
    split at h
    · cases h
    split at h
    · cases h
    rename_i hroom
    have hcount : c.count + 1 ≤ n := by
      have : n ≠ c.count := fun he => hroom (congrArg some he)
      omega
    split at h
    · split at h <;> cases h
      exact hcount
    split at h
    · cases h
    rename_i hl
    split at h
    · cases h
    rename_i hr
    cases h
    exact ih hr (ih hl hcount)

theorem readContainer_ok_nodes_le {n : Nat} {inp rest : List Byte} {t : Node}
    (h : readContainer (some n) inp = .ok (t, rest)) : t.nodes ≤ n := by
  unfold readContainer at h
  split at h
  · cases h
  split at h
  · cases h
  split at h
  · cases h
  rename_i t' c hn
  split at h
  · cases h
  split at h
  · cases h
  cases h
  obtain ⟨-, -, hcount, -, -⟩ := parseNode_ok hn
  have := parseNode_count_le hn (Nat.zero_le n)
  simp only at hcount
  omega

/-! ### The invariant by parts: what the stores hold, what a running DESERIALIZE holds -/

/-- Both capacities are finite and NODE_CAPACITY is `n`: what the invariant's bound on nodes speaks of. -/
def State.Bounded (s : State) (n : Nat) : Prop :=
  s.cfg.candCapacity.isSome = true ∧ s.cfg.nodeCapacity = some n

/-- The part of the invariant on the stores and WEIGHT, which says nothing of the transient state
(10_state.md R24 to R28). -/
structure StoresOk (s : State) : Prop where
  isTree : ∀ t, s.tree = some t → t.isTree = true
  fits : ∀ n t, s.Bounded n → s.tree = some t → t.nodes ≤ n
  cand : candOk s = true
  table : mapOk s = true
  weight : s.weight < weightLimit s.cfg

/-- The part of the invariant on the transient state (43_codec_deserialize.md R177, R186, R196). -/
structure ParseOk (s : State) : Prop where
  running : busy s = true → s.tree = none ∧ s.mapValid = false
  phase : phaseOk s.parse = true
  fits : ∀ n, s.Bounded n → s.parse.count ≤ n

theorem capacityOk_iff (s : State) : capacityOk s = true ↔
    ∀ n, s.Bounded n → s.parse.count ≤ n ∧ ∀ t, s.tree = some t → t.nodes ≤ n := by
  unfold capacityOk State.Bounded
  cases s.cfg.candCapacity <;> cases s.cfg.nodeCapacity <;> cases s.tree <;> simp

theorem treeOk_iff (s : State) : treeOk s = true ↔ ∀ t, s.tree = some t → t.isTree = true := by
  unfold treeOk
  cases s.tree <;> simp

theorem runningOk_iff (s : State) :
    runningOk s = true ↔ (busy s = true → s.tree = none ∧ s.mapValid = false) := by
  unfold runningOk
  cases busy s <;> simp

theorem candOk_iff (s : State) : candOk s = true ↔
    s.cand.all (Node.isCandidate (weightLimit s.cfg)) = true ∧
      ∀ k, s.cfg.candCapacity = some k → s.cand.length ≤ k := by
  unfold candOk
  cases s.cfg.candCapacity <;> simp

/-- The invariant is its two parts. -/
theorem inv_iff (s : State) : s.Inv ↔ StoresOk s ∧ ParseOk s := by
  unfold State.Inv
  rw [treeOk_iff, runningOk_iff, capacityOk_iff]
  constructor
  · rintro ⟨htree, hcand, hmap, hrun, hphase, hcap, hweight⟩
    exact ⟨⟨htree, fun n t hn => (hcap n hn).2 t, hcand, hmap, hweight⟩,
      ⟨hrun, hphase, fun n hn => (hcap n hn).1⟩⟩
  · rintro ⟨hs, hp⟩
    exact ⟨hs.isTree, hs.cand, hs.table, hp.running, hp.phase,
      fun n hn => ⟨hp.fits n hn, fun t => hs.fits n t hn⟩, hs.weight⟩

/-! #### The transient state -/

/-- With no command running the transient state says nothing (Log 12). -/
theorem parseOk_of_atRest {s : State} (h : atRest s) : ParseOk s where
  running hb := by simp [busy, h, Parse.idle] at hb
  phase := by
    rw [h]
    rfl
  fits n _ := by
    rw [h]
    exact Nat.zero_le n

theorem inv_finish {c : Code} {u : State} (h : StoresOk u) : (finish c u).Inv :=
  (inv_iff _).2 ⟨{ h with }, parseOk_of_atRest (finish_parse c u)⟩

theorem inv_failAt {c : Code} {offset : Nat} {u : State} (h : StoresOk u) : (failAt c offset u).Inv :=
  inv_finish { h with }

/-- A running command goes on: from a state with a command running, the stores stay as they are. -/
theorem inv_running {s t : State} (h : s.Inv) (hb : busy s = true) (hphase : phaseOk t.parse = true)
    (hcount : ∀ n, s.Bounded n → t.parse.count ≤ n)
    (ht : t = { s with inp := t.inp, parse := t.parse }) : t.Inv := by
  obtain ⟨hs, hp⟩ := (inv_iff s).1 h
  rw [ht]
  exact (inv_iff _).2 ⟨{ hs with }, fun _ => hp.running hb, hphase, hcount⟩

/-! #### The stores -/

theorem StoresOk.map_eq_nil {s : State} (h : StoresOk s) (hv : s.mapValid = false) : s.map = [] := by
  simpa [mapOk, hv] using h.table

theorem storesOk_dropTree {s : State} (h : StoresOk s) : StoresOk (dropTree s) where
  isTree t ht := by cases ht
  fits n t _ ht := by cases ht
  cand := h.cand
  table := rfl
  weight := h.weight

theorem storesOk_clearCand {s : State} (h : StoresOk s) : StoresOk { s with cand := [] } :=
  { h with cand := (candOk_iff _).2 ⟨rfl, fun k _ => Nat.zero_le k⟩ }

/-- A tree put in place of none, before any DERIVE. -/
theorem storesOk_setTree {s : State} {t : Node} (h : StoresOk s) (hv : s.mapValid = false)
    (ht : t.isTree = true) (hn : ∀ n, s.Bounded n → t.nodes ≤ n) :
    StoresOk { s with tree := some t } where
  isTree t' ht' := by
    cases ht'
    exact ht
  fits n t' hb ht' := by
    cases ht'
    exact hn n hb
  cand := h.cand
  table := by simp [mapOk, hv, h.map_eq_nil hv]
  weight := h.weight

/-! ### Every instruction keeps the invariant -/

theorem execClear_inv {s t : State} (h : StoresOk s) (he : execClear s = .next t) : t.Inv := by
  cases he
  exact inv_finish (storesOk_clearCand (storesOk_dropTree h))

theorem execLoadLeaf_inv {sym : Byte} {s t : State} (h : StoresOk s)
    (he : execLoadLeaf sym s = .next t) : t.Inv := by
  unfold execLoadLeaf at he
  split at he
  · cases he
    exact inv_finish h
  · rename_i hroom
    cases he
    obtain ⟨hall, hlen⟩ := (candOk_iff s).1 h.cand
    refine inv_finish { h with cand := (candOk_iff _).2 ⟨?_, fun k hk => ?_⟩ }
    · simp [List.all_append, hall, Node.isCandidate, weightOperand, h.weight]
    · have hle := hlen k hk
      have hne : k ≠ s.cand.length := fun hke => hroom (hke ▸ hk)
      simp only [List.length_append, List.length_cons, List.length_nil]
      omega

/-- Admissible finite capacities leave room for every tree BUILD can make (00_scope.md R7). -/
theorem capacity_of_valid {c : Config} {k n : Nat} (h : c.valid = true) (hk : c.candCapacity = some k)
    (hn : c.nodeCapacity = some n) : max 3 (2 * k - 1) ≤ n := by
  simp only [Config.valid, hk, hn, Bool.and_eq_true, decide_eq_true_eq] at h
  exact h.2

theorem execBuild_inv {s t : State} (hv : s.cfg.valid = true) (h : StoresOk s)
    (he : execBuild s = .next t) : t.Inv := by
  have hs := storesOk_clearCand (storesOk_dropTree h)
  unfold execBuild at he
  dsimp only at he
  split at he
  · cases he
    exact inv_finish hs
  · rename_i t' ht'
    cases he
    obtain ⟨hall, hlen⟩ := (candOk_iff s).1 h.cand
    obtain ⟨htree, hnodes⟩ := buildTree_ok hall ht'
    refine inv_finish (storesOk_setTree hs rfl htree fun n hb => ?_)
    obtain ⟨hk, hn⟩ := hb
    obtain ⟨k, hk⟩ := Option.isSome_iff_exists.1 hk
    have hle := hlen k hk
    have hcap := capacity_of_valid hv hk hn
    omega

theorem execDerive_inv {s t : State} (h : StoresOk s) (he : execDerive s = .next t) : t.Inv := by
  unfold execDerive at he
  split at he
  · cases he
    exact inv_finish { h with table := rfl }
  · rename_i t' ht'
    cases he
    exact inv_finish { h with table := by simp [mapOk, ht'] }

theorem execSerialize_inv {s t : State} (h : StoresOk s) (he : execSerialize s = .next t) : t.Inv := by
  unfold execSerialize at he
  split at he <;> cases he
  · exact inv_finish h
  · exact inv_finish { h with }

theorem execDeserialize_inv {s t : State} (h : StoresOk s) (he : execDeserialize s = .next t) : t.Inv := by
  have hs := storesOk_dropTree h
  cases hr : readContainer s.cfg.nodeCapacity s.inp with
  | error e =>
    rw [execDeserialize_of_error hr, afterRead_eq_finish] at he
    cases he
    exact inv_finish { hs with }
  | ok r =>
    obtain ⟨t', rest⟩ := r
    rw [execDeserialize_of_ok hr, afterRead_eq_finish] at he
    cases he
    obtain ⟨-, htree, -⟩ := readContainer_ok hr
    have hs' : StoresOk { dropTree s with errOffset := 0, inp := rest } := { hs with }
    refine inv_finish (storesOk_setTree hs' rfl htree fun n hb => ?_)
    exact readContainer_ok_nodes_le (hb.2 ▸ hr)

/-- A tag that has a place gives a phase that agrees with one node more. -/
def PlacesOneNode (place : List Frame → Option Phase) : Prop :=
  ∀ stack p off count, phaseOk ⟨.tag stack, off, count⟩ = true → place stack = some p →
    phaseOk ⟨p, off, count + 1⟩ = true

theorem takeTag_inv {place : List Frame → Option Phase} {s t : State} (hplace : PlacesOneNode place)
    (h : s.Inv) (he : takeTag place s = .next t) : t.Inv := by
  obtain ⟨hs, hp⟩ := (inv_iff s).1 h
  obtain ⟨stack, hstack, ⟨-, rfl⟩ | ⟨p, hpl, ⟨-, rfl⟩ | ⟨hroom, rfl⟩⟩⟩ := takeTag_next he
  · exact inv_failAt hs
  · exact inv_failAt hs
  · have hphase := hp.phase
    have hparse : s.parse = ⟨.tag stack, s.parse.off, s.parse.count⟩ := by rw [← hstack]
    rw [hparse] at hphase
    refine inv_running h (by simp [busy, hstack]) (hplace _ _ _ _ hphase hpl) (fun n hb => ?_) rfl
    have hle := hp.fits n hb
    have hne : n ≠ s.parse.count := fun hn => hroom (hn ▸ hb.2)
    show s.parse.count + 1 ≤ n
    omega

theorem execTagRoot_inv {s t : State} (h : s.Inv) (he : execTagRoot s = .next t) : t.Inv := by
  refine takeTag_inv (fun stack p off count hp hpl => ?_) h he
  cases stack with
  | nil =>
    cases hpl
    obtain rfl : count = stackNodes [] := by simpa [phaseOk] using hp
    rfl
  | cons f fs => cases hpl

theorem execTagInternal_inv {s t : State} (h : s.Inv) (he : execTagInternal s = .next t) : t.Inv := by
  refine takeTag_inv (fun stack p off count hp hpl => ?_) h he
  cases stack with
  | nil => cases hpl
  | cons f fs =>
    cases hpl
    obtain ⟨hok, hcount⟩ : stackOk (f :: fs) = true ∧ count = stackNodes (f :: fs) := by
      simpa [phaseOk] using hp
    have hnodes : count + 1 = stackNodes (⟨.internal, none⟩ :: f :: fs) := by
      rw [hcount, add_comm]
      rfl
    simp [phaseOk, stackOk, Frame.leftOk, hok, hnodes]

theorem execTagLeaf_inv {s t : State} (h : s.Inv) (he : execTagLeaf s = .next t) : t.Inv := by
  refine takeTag_inv (fun stack p off count hp hpl => ?_) h he
  cases stack with
  | nil => cases hpl
  | cons f fs =>
    cases hpl
    simpa [phaseOk] using hp

theorem execTagInvalid_inv (first : Bool) (b : Byte) {s t : State} (h : s.Inv)
    (he : execTagInvalid first b s = .next t) : t.Inv :=
  takeTag_inv (fun _ _ _ _ _ hpl => by cases hpl) h he

/-- Every instruction keeps the invariant, at admissible parameters. -/
theorem exec_inv {i : Instr} {s t : State} (hv : s.cfg.valid = true) (h : s.Inv)
    (he : exec i s = .next t) : t.Inv := by
  have hs := ((inv_iff s).1 h).1
  cases i with
  | clear => exact execClear_inv hs he
  | loadLeaf sym => exact execLoadLeaf_inv hs he
  | build => exact execBuild_inv hv hs he
  | derive => exact execDerive_inv hs he
  | serialize => exact execSerialize_inv hs he
  | deserialize => exact execDeserialize_inv hs he
  | illegal w =>
    cases he
    exact inv_finish hs
  | tagRoot => exact execTagRoot_inv h he
  | tagInternal => exact execTagInternal_inv h he
  | tagLeaf => exact execTagLeaf_inv h he
  | tagInvalid first b => exact execTagInvalid_inv first b h he

/-! ### Host actions and bytes of a container keep the invariant -/

theorem writeReg_inv {s : State} (reg val : Nat) (h : s.Inv) : (writeReg s reg val).Inv := by
  obtain ⟨hs, hp⟩ := (inv_iff s).1 h
  rcases writeReg_cases s reg val with ⟨-, he⟩ | ⟨-, he⟩ | ⟨-, -, he⟩ <;> rw [he]
  · have hw : weightValue s.cfg val < weightLimit s.cfg := Nat.mod_lt _ (Nat.two_pow_pos _)
    exact (inv_iff _).2 ⟨{ hs with weight := hw }, { hp with }⟩
  · exact (inv_iff _).2 ⟨{ hs with }, { hp with }⟩
  · exact h

theorem assertReset_inv (s : State) : (assertReset s).Inv := by
  refine (inv_iff _).2 ⟨?_, parseOk_of_atRest (assertReset_parse s)⟩
  exact
    { isTree := fun t ht => by cases ht
      fits := fun n t _ ht => by cases ht
      cand := (candOk_iff _).2 ⟨rfl, fun k _ => Nat.zero_le k⟩
      table := rfl
      weight := Nat.two_pow_pos _ }

/-- The streams and the host's pending actions play no part in the invariant. -/
theorem inv_streams {s : State} (inp out : List Byte) (host : List HostAct) (h : s.Inv) :
    { s with inp := inp, out := out, host := host }.Inv := h

theorem hostAct_done_inv {a : HostAct} {s t : State} (h : s.Inv) (hd : hostAct a s = .done t) : t.Inv := by
  rcases hostAct_cases a s with ⟨_, -, -, ha⟩ | ⟨_, -, -, ha⟩ | ⟨reg, val, -, -, ha⟩ | ⟨_, -, ha⟩ |
    ⟨_, -, ha⟩ | ⟨_, -, ha⟩ | ⟨_, -, ha⟩ | ⟨_, -, ha⟩ | ⟨-, ha⟩ <;> rw [ha] at hd <;> cases hd
  · exact h
  · exact writeReg_inv reg val h
  · exact h
  · exact inv_streams _ _ _ h
  · exact inv_streams _ _ _ h
  · exact inv_streams _ _ _ h
  · exact inv_streams _ _ _ h
  · exact assertReset_inv s

theorem headerStep_inv {buf : List Byte} {s : State} (h : s.Inv) (hb : s.parse.phase = .hdr buf) :
    (headerStep buf s).Inv := by
  obtain ⟨hs, hp⟩ := (inv_iff s).1 h
  obtain ⟨⟨-, hoff⟩, hcount⟩ :
      (buf.length < headerLength ∧ s.parse.off = buf.length) ∧ s.parse.count = 0 := by
    simpa [phaseOk, hb] using hp.phase
  have hbusy : busy s = true := by simp [busy, hb]
  rcases headerStep_cases buf s with ⟨-, he⟩ | ⟨b, rest, -, ⟨hl, he⟩ | ⟨-, ⟨k, -, he⟩ | ⟨-, he⟩⟩⟩ <;>
    rw [he]
  · exact inv_failAt hs
  · exact inv_running h hbusy (by simp [phaseOk, hl, hoff, hcount]) hp.fits rfl
  · exact inv_failAt { hs with }
  · exact inv_running h hbusy (by simp [phaseOk, hcount, stackNodes]) hp.fits rfl

theorem symbolStep_inv {top : Frame} {below : List Frame} {s : State} (h : s.Inv)
    (hb : s.parse.phase = .sym top below) : (symbolStep top below s).Inv := by
  obtain ⟨hs, hp⟩ := (inv_iff s).1 h
  obtain ⟨hstack, hcount⟩ :
      stackOk (top :: below) = true ∧ s.parse.count = stackNodes (top :: below) + 1 := by
    simpa [phaseOk, hb] using hp.phase
  have hbusy : busy s = true := by simp [busy, hb]
  rcases symbolStep_cases top below s with ⟨-, he⟩ | ⟨b, rest, -, he⟩ <;> rw [he]
  · exact inv_failAt hs
  · refine inv_running h hbusy ?_ hp.fits rfl
    simpa [hcount, Node.nodes] using
      reduce_counts top below (.leaf b 0) (s.parse.off + 1) hstack rfl

theorem footerStep_inv {n : Node} {buf : List Byte} {s : State} (h : s.Inv)
    (hb : s.parse.phase = .ftr n buf) : (footerStep n buf s).Inv := by
  obtain ⟨hs, hp⟩ := (inv_iff s).1 h
  obtain ⟨⟨htree, hcount⟩, -⟩ :
      (n.isTree = true ∧ s.parse.count = n.nodes) ∧ buf.length < footerLength := by
    simpa [phaseOk, hb] using hp.phase
  have hbusy : busy s = true := by simp [busy, hb]
  rcases footerStep_cases n buf s with ⟨-, he⟩ | ⟨b, rest, -, ⟨hl, he⟩ | ⟨-, ⟨k, -, he⟩ | ⟨-, he⟩⟩⟩ <;>
    rw [he]
  · exact inv_failAt hs
  · exact inv_running h hbusy (by simp [phaseOk, hl, htree, hcount]) hp.fits rfl
  · exact inv_failAt { hs with }
  · have hs' : StoresOk
        { s with inp := rest, parse := { s.parse with off := s.parse.off + 1 } } := { hs with }
    exact inv_finish (storesOk_setTree hs' (hp.running hbusy).2 htree fun m hm => hcount ▸ hp.fits m hm)

theorem fetch_done_inv {s t : State} (h : s.Inv) (hd : fetch s = .done t) : t.Inv := by
  have hs := ((inv_iff s).1 h).1
  rcases fetch_cases s with ⟨-, -, hf⟩ | ⟨a, rest, -, -, hf⟩ | ⟨buf, hb, hf⟩ | ⟨stack, -, -, hf⟩ |
    ⟨stack, b, rest, -, -, hf⟩ | ⟨top, below, hb, hf⟩ | ⟨n, buf, hb, hf⟩ <;> rw [hf] at hd
  · cases hd
    exact h
  · exact hostAct_done_inv (inv_streams _ _ _ h) hd
  · cases hd
    exact headerStep_inv h hb
  · cases hd
    exact inv_failAt hs
  · cases hd
  · cases hd
    exact symbolStep_inv h hb
  · cases hd
    exact footerStep_inv h hb

/-- An instruction is fetched into a state that still meets the invariant: a pending action is off its list,
or a tag byte is consumed. -/
theorem fetch_run_inv {s u : State} {i : Instr} (h : s.Inv) (hr : fetch s = .run i u) : u.Inv := by
  rcases fetch_cases s with ⟨-, -, hf⟩ | ⟨a, rest, -, -, hf⟩ | ⟨buf, -, hf⟩ | ⟨stack, -, -, hf⟩ |
    ⟨stack, b, rest, hb, -, hf⟩ | ⟨top, below, -, hf⟩ | ⟨n, buf, -, hf⟩ <;> rw [hf] at hr
  · cases hr
  · obtain ⟨rfl, -⟩ := hostAct_run hr
    exact inv_streams _ _ _ h
  · cases hr
  · cases hr
  · cases hr
    have hp := ((inv_iff s).1 h).2
    exact inv_running h (by simp [busy, hb]) (by simpa [phaseOk, hb] using hp.phase) hp.fits rfl
  · cases hr
  · cases hr

/-- Settles O51: what `fetch` does whole keeps the invariant, and so does fetching an instruction and
running it. -/
theorem stepsKeepTheInvariant : Obligations.StepsKeepTheInvariant := by
  intro s t h hstep
  obtain ⟨hv, hd | ⟨i, u, hr, he⟩⟩ := step_next hstep
  · exact fetch_done_inv h hd
  · obtain ⟨hcfg, -⟩ := fetch_run_keeps hr
    exact exec_inv (hcfg ▸ hv) (fetch_run_inv h hr) he

/-! ### What each instruction can write (10_state.md section 4) -/

/-- A failed read leaves an end of IN (43_codec_deserialize.md R192). -/
theorem readContainer_error_suffix {capacity : Option Nat} {inp : List Byte} {e : ReadError}
    (h : readContainer capacity inp = .error e) : e.inp <:+ inp := by
  unfold readContainer at h
  split at h
  · cases h
    exact List.nil_suffix
  rename_i hd body hhd
  obtain ⟨-, rfl⟩ := inReadN_eq_some.1 hhd
  have hbody : body <:+ hd ++ body := List.suffix_append hd body
  split at h
  · cases h
    exact hbody
  split at h
  · rename_i hn
    cases h
    obtain ⟨used, hused, -⟩ := parseNode_error (Nat.le_refl body.length) hn
    exact List.IsSuffix.trans ⟨used, hused.symm⟩ hbody
  rename_i t c hn
  obtain ⟨hused, -⟩ := parseNode_ok hn
  split at h
  · cases h
    exact List.nil_suffix
  rename_i f rest hf
  obtain ⟨-, hrest⟩ := inReadN_eq_some.1 hf
  split at h
  · cases h
    exact (List.IsSuffix.trans ⟨f, hrest.symm⟩ ⟨ser t, hused.symm⟩).trans hbody
  · cases h

theorem execLoadLeaf_writes {sym : Byte} {s t : State} (h : execLoadLeaf sym s = .next t) :
    ∃ c cand, t = finish c { s with cand := cand } := by
  unfold execLoadLeaf at h
  split at h <;> cases h
  · exact ⟨_, s.cand, rfl⟩
  · exact ⟨_, _, rfl⟩

theorem execBuild_writes {s t : State} (h : execBuild s = .next t) : ∃ r, t = afterBuild r s := by
  unfold execBuild at h
  dsimp only at h
  split at h <;> cases h
  · rename_i c _
    exact ⟨.error c, rfl⟩
  · rename_i n _
    exact ⟨.ok n, rfl⟩

theorem execDerive_writes {s t : State} (h : execDerive s = .next t) :
    ∃ c m v, t = finish c { s with map := m, mapValid := v } := by
  unfold execDerive at h
  split at h <;> cases h <;> exact ⟨_, _, _, rfl⟩

theorem execSerialize_writes {s t : State} (h : execSerialize s = .next t) :
    ∃ c bs, t = finish c (outWrite bs s) := by
  unfold execSerialize at h
  split at h <;> cases h
  · exact ⟨.noTree, [], by simp [outWrite]⟩
  · exact ⟨_, _, rfl⟩

theorem execDeserialize_writes {s t : State} (h : execDeserialize s = .next t) :
    ∃ n c offset rest, t = afterRead n c offset rest s ∧ rest <:+ s.inp := by
  cases hr : readContainer s.cfg.nodeCapacity s.inp with
  | error e =>
    rw [execDeserialize_of_error hr] at h
    cases h
    exact ⟨_, _, _, _, rfl, readContainer_error_suffix hr⟩
  | ok r =>
    rw [execDeserialize_of_ok hr] at h
    cases h
    obtain ⟨hinp, -⟩ := readContainer_ok hr
    exact ⟨_, _, _, _, rfl, _, hinp.symm⟩

theorem takeTag_writes {place : List Frame → Option Phase} {s t : State}
    (h : takeTag place s = .next t) :
    ∃ p c cs offset, t = { s with parse := p, code := c, codes := cs, errOffset := offset } := by
  obtain ⟨stack, -, ⟨-, rfl⟩ | ⟨p, -, ⟨-, rfl⟩ | ⟨-, rfl⟩⟩⟩ := takeTag_next h <;> exact ⟨_, _, _, _, rfl⟩

/-- The frame of one instruction: what `i` leaves unchanged from `s` to `t`, as InstructionFrames lists
it. -/
def KeepsFrame (i : Instr) (s t : State) : Prop :=
  keepsOperands s t ∧
  (i ≠ .serialize → t.out = s.out) ∧ s.out <+: t.out ∧
  (i ≠ .deserialize → t.inp = s.inp) ∧ t.inp <:+ s.inp ∧
  (i ≠ .deserialize → commandCodes i ≠ none → t.errOffset = s.errOffset) ∧
  (i ≠ .clear → (∀ sym, i ≠ .loadLeaf sym) → i ≠ .build → t.cand = s.cand) ∧
  (i ≠ .clear → i ≠ .build → i ≠ .deserialize → t.tree = s.tree) ∧
  (i ≠ .clear → i ≠ .build → i ≠ .deserialize → i ≠ .derive →
    t.map = s.map ∧ t.mapValid = s.mapValid)

theorem tag_keepsFrame {i : Instr} {s t : State} (hi : commandCodes i = none) (h : exec i s = .next t) :
    KeepsFrame i s t := by
  obtain ⟨place, hplace⟩ := exec_tag hi s
  obtain ⟨p, c, cs, offset, rfl⟩ := takeTag_writes (hplace ▸ h)
  simp [KeepsFrame, keepsOperands, hi]

/-- Settles O44: each instruction writes the fields its own rule names, and no others. -/
theorem instructionFrames : Obligations.InstructionFrames := by
  intro i s t h
  show KeepsFrame i s t
  cases i with
  | clear =>
    cases h
    simp [KeepsFrame, keepsOperands]
  | loadLeaf sym =>
    obtain ⟨c, cand, rfl⟩ := execLoadLeaf_writes h
    simp [KeepsFrame, keepsOperands]
  | build =>
    obtain ⟨r, rfl⟩ := execBuild_writes h
    simp [KeepsFrame, keepsOperands, afterBuild]
  | derive =>
    obtain ⟨c, m, v, rfl⟩ := execDerive_writes h
    simp [KeepsFrame, keepsOperands]
  | serialize =>
    obtain ⟨c, bs, rfl⟩ := execSerialize_writes h
    simp [KeepsFrame, keepsOperands]
  | deserialize =>
    obtain ⟨n, c, offset, rest, rfl, hrest⟩ := execDeserialize_writes h
    simp [KeepsFrame, keepsOperands, afterRead, hrest]
  | illegal w =>
    cases h
    simp [KeepsFrame, keepsOperands]
  | tagRoot => exact tag_keepsFrame rfl h
  | tagInternal => exact tag_keepsFrame rfl h
  | tagLeaf => exact tag_keepsFrame rfl h
  | tagInvalid first b => exact tag_keepsFrame rfl h

/-! ### STATUS (10_state.md R31) -/

/-- A bit of the STATUS word above CODE. -/
theorem getLsbD_status (s : State) {i : Nat} (hi : 4 ≤ i) :
    (status s).getLsbD i =
      if i = 4 then treeValid s else if i = 5 then s.mapValid else decide (i = 6) && busy s := by
  obtain ⟨k, rfl⟩ := Nat.exists_eq_add_of_le hi
  simp only [status, BitVec.getLsbD_append, BitVec.getLsbD_ofBool, BitVec.getLsbD_zero]
  rcases k with _ | _ | _ | k
  · simp
  · simp
  · simp
  · have h5 : 4 + (k + 1 + 1 + 1) ≠ 5 := by omega
    have h6 : 4 + (k + 1 + 1 + 1) ≠ 6 := by omega
    simp [h5, h6]

/-- Settles O55: STATUS is its fields side by side, and each is read at its place. -/
theorem statusFields : Obligations.StatusFields := by
  refine ⟨rfl, rfl, rfl, rfl, rfl, rfl, rfl, rfl, rfl, rfl, fun s => ⟨fun _ => rfl, ?_, ?_, ?_, ?_, ?_⟩⟩
  · exact BitVec.extractLsb'_append_eq_right
  · exact getLsbD_status s (by decide)
  · exact getLsbD_status s (by decide)
  · exact getLsbD_status s (by decide)
  · intro i hi
    rw [getLsbD_status s (by omega), if_neg (by omega), if_neg (by omega), decide_eq_false (by omega),
      Bool.false_and]

/-! ### The MAP port (10_state.md R33) -/

/-- The number a code word is shown as has the code word's bits, and zeros past its end. -/
theorem testBit_bitsNumber (bs : Bits) (j : Nat) : (bitsNumber bs).testBit j = bs.getD j false := by
  induction bs generalizing j with
  | nil => simp [bitsNumber]
  | cons b bs ih =>
    have hbit : bitsNumber (b :: bs) = Nat.bit b (bitsNumber bs) := by
      cases b <;> simp [bitsNumber, Nat.bit, add_comm]
    cases j with
    | zero => simp [hbit]
    | succ j => simp [hbit, Nat.testBit_bit_succ, ih]

theorem getLsbD_mapBits {s : State} {c : Bits} (h : mapEntry s s.mapSym = some c) {j : Nat} (k : Nat)
    (hj : j < 32) : (mapBits s k).getLsbD j = c.getD (32 * k + j) false := by
  simp only [mapBits, h, BitVec.getLsbD_ofNat, testBit_bitsNumber, hj, decide_true, Bool.true_and,
    List.getD_eq_getElem?_getD, List.getElem?_take_of_lt, List.getElem?_drop]

theorem readReg_mapBits {s : State} {k : Nat} (hk : k < mapBitsRegisters s.cfg) :
    readReg s (8 + k) = (mapBits s k).toNat := by
  rw [Nat.add_comm]
  simp [readReg, hk]

/-- Settles O56: up to 255 code-word bits LEN has its 15 bits and eight MAP_BITS registers hold them all. -/
theorem mapPortShowsTheEntry : Obligations.MapPortShowsTheEntry := by
  intro s n _ hn hle
  have hreg : ∀ k, k < 8 → readReg s (8 + k) = (mapBits s k).toNat := fun k hk =>
    readReg_mapBits (lt_of_lt_of_le hk (le_max_left _ _))
  refine ⟨fun habs => ⟨mapInfo_absent habs, fun k hk => ?_⟩, fun c hc hlen => ⟨?_, fun k hk => ?_⟩⟩
  · simp [hreg k hk, mapBits, habs]
  · have hbits : lenBits s.cfg c.length = 15 := by
      apply lenBits_of_small
      · rw [hn, Option.getD_some]
        omega
      · omega
    simp [readReg, mapInfo, hc, hbits]
  · exact ⟨hreg k hk, fun j hj => getLsbD_mapBits hc k hj⟩

/-! ### The plain registers (10_state.md R30) -/

theorem readReg_eq_zero_of_le {s : State} {reg : Nat} (h : 8 + mapBitsRegisters s.cfg ≤ reg) :
    readReg s reg = 0 := by
  obtain ⟨k, rfl⟩ := Nat.exists_eq_add_of_le' (show 8 ≤ reg by omega)
  have hk : ¬k < mapBitsRegisters s.cfg := by omega
  simp [readReg, hk]

theorem candCount_of_lt {s : State} (h : s.cand.length < 2 ^ 16) : candCount s = s.cand.length := by
  unfold candCount
  split
  · exact Nat.mod_eq_of_lt h
  · rfl

theorem errOffsetRegister_of_lt {s : State} (h : s.errOffset < 2 ^ 32) :
    errOffsetRegister s = s.errOffset := by
  unfold errOffsetRegister
  split
  · exact Nat.mod_eq_of_lt h
  · rfl

theorem writeReg_of_ne {s : State} {reg val : Nat} (h1 : reg ≠ 1) (h5 : reg ≠ 5) :
    writeReg s reg val = s := by
  rcases writeReg_cases s reg val with ⟨h, -⟩ | ⟨h, -⟩ | ⟨-, -, h⟩
  · exact absurd h h1
  · exact absurd h h5
  · exact h

/-- Settles O57: a write is read back reduced to the register's width; the counts below their widths are
shown exactly. -/
theorem registerReadsAndWrites : Obligations.RegisterReadsAndWrites := fun _ val =>
  ⟨rfl, BitVec.toNat_ofNat val 8, rfl, rfl, fun _ => readReg_eq_zero_of_le, fun _ => writeReg_of_ne,
    fun _ => candCount_of_lt, fun _ => errOffsetRegister_of_lt⟩

/-! ### CLEAR and reset (10_state.md R42) -/

/-- Settles O59: CLEAR and reset write the same values, and CLEAR leaves the three operands alone. -/
theorem clearIsResetButForOperands : Obligations.ClearIsResetButForOperands := fun _ => rfl

end Sys2Proof.Machine
end

section
/-! PROOFS for the statements of 30_encoding.md: the opcode map read by the fields OPC and SYM, and the two
register writes of the LOAD_LEAF line. -/

namespace Sys2Proof.Machine

/-! ### The fields of a command word (30_encoding.md R80) -/

@[simp] theorem opcField_commandWord (sym opc : Byte) : opcField (commandWord sym opc) = opc :=
  BitVec.extractLsb'_append_eq_right

@[simp] theorem symField_commandWord (sym opc : Byte) : symField (commandWord sym opc) = sym :=
  BitVec.extractLsb'_append_eq_left

theorem commandWord_fields (w : CmdWord) : commandWord (symField w) (opcField w) = w := by
  unfold commandWord symField opcField
  rw [BitVec.extractLsb'_append_extractLsb'_eq_extractLsb' (by rfl), BitVec.extractLsb'_eq_self]

theorem eq_iff_fields (w k : CmdWord) : w = k ↔ symField w = symField k ∧ opcField w = opcField k := by
  refine ⟨fun h => by simp [h], fun ⟨hsym, hopc⟩ => ?_⟩
  rw [← commandWord_fields w, hsym, hopc, commandWord_fields]

/-- A row whose mask covers the word asks for both fields. -/
theorem and_wordMask_eq_iff (w k : CmdWord) :
    w &&& 0xffff#16 = k ↔ symField w = symField k ∧ opcField w = opcField k := by
  rw [show w &&& 0xffff#16 = w from BitVec.and_allOnes, eq_iff_fields]

/-- LOAD_LEAF's row asks for OPC alone: its mask clears SYM and keeps OPC. -/
theorem and_opcMask_eq_iff (w : CmdWord) : w &&& 0x00ff#16 = 0x0002#16 ↔ opcField w = 0x02#8 := by
  have hmask : w &&& 0x00ff#16 = commandWord 0x00#8 (opcField w) := calc
    w &&& 0x00ff#16 = (symField w ++ opcField w) &&& (0x00#8 ++ 0xff#8) :=
      congrArg (· &&& _) (commandWord_fields w).symm
    _ = (symField w &&& 0x00#8) ++ (opcField w &&& 0xff#8) := BitVec.and_append
    _ = commandWord 0x00#8 (opcField w) := congrArg₂ _ BitVec.and_zero BitVec.and_allOnes
  rw [hmask, eq_iff_fields, symField_commandWord, opcField_commandWord]
  exact and_iff_right rfl

/-- The opcode map by fields (30_encoding.md R82, R83). -/
theorem decodeCommand_eq_of_fields (w : CmdWord) : decodeCommand w =
    if symField w = 0x00#8 ∧ opcField w = 0x01#8 then .clear
    else if opcField w = 0x02#8 then .loadLeaf (symField w)
    else if symField w = 0x00#8 ∧ opcField w = 0x03#8 then .build
    else if symField w = 0x00#8 ∧ opcField w = 0x04#8 then .derive
    else if symField w = 0x00#8 ∧ opcField w = 0x05#8 then .serialize
    else if symField w = 0x00#8 ∧ opcField w = 0x06#8 then .deserialize
    else .illegal w := by
  simp only [decodeCommand, and_wordMask_eq_iff, and_opcMask_eq_iff]
  rfl

/-! ### The illegal words (30_encoding.md R83) -/

/-- The opcodes of the commands without an operand (30_encoding.md R82). -/
abbrev noOperandOpcodes : List Byte := [0x01#8, 0x03#8, 0x04#8, 0x05#8, 0x06#8]

theorem mem_noOperandOpcodes_iff (opc : Byte) :
    opc ∈ noOperandOpcodes ↔ opc ≠ 0x00#8 ∧ opc ≠ 0x02#8 ∧ ¬7 ≤ opc.toNat := by
  revert opc
  decide

/-- A word is illegal unless it is LOAD_LEAF's, or a command's without operand and SYM is zero. -/
theorem decodeCommand_eq_illegal_iff (w : CmdWord) : decodeCommand w = .illegal w ↔
    opcField w ≠ 0x02#8 ∧ (opcField w ∈ noOperandOpcodes → symField w ≠ 0x00#8) := by
  rw [decodeCommand_eq_of_fields]
  by_cases hsym : symField w = 0x00#8
  · simp only [hsym, true_and]
    split_ifs <;> simp_all
  · simp [hsym]

/-- Settles O3: by the row each opcode has, a word is illegal for its SYM alone when its opcode takes no
operand, and for its opcode alone when it stands outside 0x01 to 0x06. -/
theorem illegalWordsAreThoseNamed : Obligations.IllegalWordsAreThoseNamed := by
  intro w
  have hmem := mem_noOperandOpcodes_iff (opcField w)
  rw [decodeCommand_eq_illegal_iff]
  by_cases hload : opcField w = 0x02#8
  · simp [hload]
  · tauto

/-! ### LOAD_LEAF as two register writes (30_encoding.md R98) -/

/-- LOAD_LEAF's word decodes to it whatever its SYM. -/
theorem decodeCommand_loadLeafWord (sym : Byte) :
    decodeCommand (commandWord sym 0x02#8) = .loadLeaf sym := by
  rw [decodeCommand_eq_of_fields]
  simp

/-- With no command running, a step whose oldest host action is a write to a register other than CMD is that
write, taken off the list (10_state.md R30). -/
theorem step_of_write {s : State} {reg val : Nat} {rest : List HostAct} (hv : s.cfg.valid = true)
    (hp : s.parse.phase = .idle) (hh : s.host = .write reg val :: rest) (hreg : reg ≠ 0) :
    step s = .next (writeReg { s with host := rest } reg val) := by
  simp [step, hv, fetch_of_host_cons hp hh, hostAct, hreg]

/-- With no command running, a step whose oldest host action issues a command word runs it. -/
theorem step_of_issue {s : State} {sym opc : Byte} {rest : List HostAct} (hv : s.cfg.valid = true)
    (hp : s.parse.phase = .idle) (hh : s.host = issue sym opc :: rest) :
    step s = exec (decodeCommand (commandWord sym opc)) { s with host := rest } := by
  have h := stepRunsTheCommand s _ rest hv hp hh
  rwa [BitVec.ofNat_toNat, BitVec.setWidth_eq] at h

/-- A write to WEIGHT of a weight that fits stores it whole (10_state.md R30). -/
theorem step_of_weightWrite {s : State} {w : Nat} {rest : List HostAct} (hv : s.cfg.valid = true)
    (hp : s.parse.phase = .idle) (hh : s.host = .write 1 w :: rest) (hw : w < 2 ^ s.cfg.weightBits) :
    step s = .next { s with host := rest, weight := w } := by
  have hval : weightValue s.cfg w = w := Nat.mod_eq_of_lt hw
  simp [step_of_write hv hp hh one_ne_zero, writeReg, hval]

/-- A CMD write of LOAD_LEAF's word with room in CAND appends the leaf of the weight held in WEIGHT
(40_tree_builder.md R111). -/
theorem step_of_loadLeafIssue {s : State} {sym : Byte} {rest : List HostAct} (hv : s.cfg.valid = true)
    (hp : s.parse.phase = .idle) (hh : s.host = issue sym 0x02#8 :: rest)
    (hroom : s.cfg.candCapacity ≠ some s.cand.length) :
    step s = .next (ended .ok { s with host := rest, cand := s.cand ++ [.leaf sym s.weight] }) := by
  rw [step_of_issue hv hp hh, decodeCommand_loadLeafWord]
  exact if_neg hroom

/-- Settles O50: the first step sets WEIGHT, the second samples it. -/
theorem loadLeafLineLoadsTheLeaf : Obligations.LoadLeafLineLoadsTheLeaf := by
  intro s sym w rest hv hs hw hroom hh
  have hp := phase_of_atRest hs
  have hwrite : step s = .next { s with host := issue sym 0x02#8 :: rest, weight := w } :=
    step_of_weightWrite hv hp hh hw
  have hload := step_of_loadLeafIssue (s := { s with host := issue sym 0x02#8 :: rest, weight := w })
    hv hp rfl hroom
  simp [Host.Core.run, core, hwrite, hload]

end Sys2Proof.Machine
end

section
/-! PROOFS for the statements of 40_tree_builder.md: CLEAR, LOAD_LEAF, the selection of a round and the tree
BUILD makes, the two equivalent selections. -/

namespace Sys2Proof.Machine

/-! ### CLEAR and LOAD_LEAF (40_tree_builder.md R110, R111) -/

/-- Settles O5: what CLEAR writes is `dropTree`, an empty CAND and the end of a command. -/
theorem clearEmptiesTheStores : Obligations.ClearEmptiesTheStores :=
  ⟨rfl, fun _ => ⟨_, rfl, rfl, rfl, fun _ => rfl, rfl, rfl, rfl, rfl, rfl, rfl, rfl, rfl, rfl, rfl⟩⟩

/-- Settles O6: the test for a full list decides between the two ends. -/
theorem loadLeafAppendsOrIsFull : Obligations.LoadLeafAppendsOrIsFull :=
  fun _ _ => ⟨rfl, fun hroom => if_neg hroom, fun hfull => if_pos hfull⟩

/-! ### BUILD's end (40_tree_builder.md R116, R118) -/

theorem exec_build (s : State) :
    exec .build s = .next (afterBuild (buildTree (weightLimit s.cfg) s.cand) s) := by
  simp only [exec, execBuild]
  cases buildTree (weightLimit s.cfg) s.cand <;> rfl

theorem buildTree_of_exec_build {s u : State} {t : Node} (he : exec .build s = .next u)
    (ht : u.tree = some t) : buildTree (weightLimit s.cfg) s.cand = .ok t := by
  rw [exec_build] at he
  cases he
  cases hb : buildTree (weightLimit s.cfg) s.cand with
  | error e => simp [afterBuild, hb, Except.toOption] at ht
  | ok t' => simpa [afterBuild, hb, Except.toOption] using ht

theorem buildTree_of_two_le {limit : Nat} {cs : List Node} (h : 2 ≤ cs.length) :
    buildTree limit cs = pairRounds limit (cs.length - 2) cs := by
  match cs, h with
  | _ :: _ :: _, _ => rfl

/-- Settles O9: BUILD doubles the leaf; the body, the table and the descent of that tree are computed. -/
theorem oneSymbolTree : Obligations.OneSymbolTree := by
  intro s x w hc
  refine ⟨by rw [exec_build, hc]; rfl, rfl, by simp [codeTable, walk, mapSet], fun b => ?_⟩
  cases b <;> rfl

/-! ### The least entry (40_tree_builder.md R115) -/

@[simp] theorem weightAt_cons_zero (x : Node) (xs : List Node) : weightAt (x :: xs) 0 = x.weight := rfl

@[simp] theorem weightAt_cons_succ (x : Node) (xs : List Node) (k : Nat) :
    weightAt (x :: xs) (k + 1) = weightAt xs k := rfl

/-- A position of the list without its entry `i` is the same position below `i` and the next one from `i`
on. -/
theorem weightAt_eraseIdx (cs : List Node) (i k : Nat) :
    weightAt (cs.eraseIdx i) k = weightAt cs (if k < i then k else k + 1) := by
  simp only [weightAt, ← List.eraseIdx_map, List.getD_eq_getElem?_getD, List.getElem?_eraseIdx]
  split <;> rfl

theorem LeastOf.unique {cs : List Node} {ok : Nat → Prop} {i j : Nat} (hi : LeastOf cs ok i)
    (hj : LeastOf cs ok j) : i = j := by
  obtain ⟨hilt, hiok, hile⟩ := hi
  obtain ⟨hjlt, hjok, hjle⟩ := hj
  have := hile j hjlt hjok
  have := hjle i hilt hiok
  omega

theorem leastOf_cons_zero {x : Node} {xs : List Node}
    (h : ∀ k < xs.length, x.weight ≤ weightAt xs k) : LeastOf (x :: xs) (fun _ => True) 0 := by
  refine ⟨by simp, trivial, fun m hm _ => ?_⟩
  cases m with
  | zero => exact .inr ⟨rfl, le_rfl⟩
  | succ m =>
    have := h m (by simpa using hm)
    simp only [weightAt_cons_zero, weightAt_cons_succ]
    omega

theorem LeastOf.cons_succ {x : Node} {xs : List Node} {k : Nat} (h : LeastOf xs (fun _ => True) k)
    (hx : weightAt xs k < x.weight) : LeastOf (x :: xs) (fun _ => True) (k + 1) := by
  obtain ⟨hlt, -, hle⟩ := h
  refine ⟨by simpa using hlt, trivial, fun m hm _ => ?_⟩
  cases m with
  | zero => exact .inl hx
  | succ m => exact (hle m (by simpa using hm) trivial).imp_right (And.imp_right Nat.succ_le_succ)

theorem leastOf_of_leastEntry {cs : List Node} {k w : Nat} (h : leastEntry cs = some (k, w)) :
    LeastOf cs (fun _ => True) k := by
  induction cs generalizing k w with
  | nil => cases h
  | cons x xs ih =>
    unfold leastEntry at h
    split at h
    · rename_i hnone
      have hxs : xs = [] := by
        by_contra hne
        simpa [hnone] using leastEntry_isSome hne
      cases h
      exact leastOf_cons_zero (by simp [hxs])
    · rename_i hsome
      have hleast := ih hsome
      obtain ⟨-, hw⟩ := leastEntry_eq_some hsome
      split at h <;> cases h
      · obtain ⟨-, -, hle⟩ := hleast
        refine leastOf_cons_zero fun m hm => ?_
        have := hle m hm trivial
        omega
      · exact hleast.cons_succ (by omega)

theorem leastOf_leastPos {cs : List Node} (h : cs ≠ []) : LeastOf cs (fun _ => True) (leastPos cs) := by
  obtain ⟨⟨k, w⟩, hk⟩ := Option.isSome_iff_exists.1 (leastEntry_isSome h)
  simpa [leastPos, hk] using leastOf_of_leastEntry hk

/-- The least entry of the list without entry `i` is, at its place in the whole list, the least of the
entries other than `i`. -/
theorem LeastOf.of_eraseIdx {cs : List Node} {i j : Nat} (hi : i < cs.length)
    (h : LeastOf (cs.eraseIdx i) (fun _ => True) j) :
    LeastOf cs (fun k => k ≠ i) (if j < i then j else j + 1) := by
  obtain ⟨hlt, -, hle⟩ := h
  rw [List.length_eraseIdx_of_lt hi] at hlt hle
  refine ⟨by split <;> omega, by split <;> omega, fun k hk hki => ?_⟩
  obtain ⟨m, hm, rfl⟩ : ∃ m < cs.length - 1, (if m < i then m else m + 1) = k := by
    rcases Nat.lt_or_gt_of_ne hki with hlt' | hlt'
    · exact ⟨k, by omega, if_pos hlt'⟩
    · exact ⟨k - 1, by omega, by rw [if_neg (by omega)]; omega⟩
  have hw := hle m hm trivial
  rw [weightAt_eraseIdx, weightAt_eraseIdx] at hw
  refine hw.imp_right fun ⟨heq, hjm⟩ => ⟨heq, ?_⟩
  split <;> split <;> omega

/-! ### Select2 (40_tree_builder.md R115) -/

theorem Selects.bounds {cs : List Node} {i j : Nat} (h : Selects cs i j) :
    i < cs.length ∧ j < cs.length ∧ i ≠ j := by
  obtain ⟨⟨hi, -⟩, hj, hne, -⟩ := h
  exact ⟨hi, hj, Ne.symm hne⟩

theorem Selects.two_le {cs : List Node} {i j : Nat} (h : Selects cs i j) : 2 ≤ cs.length := by
  have := h.bounds
  omega

theorem Selects.unique {cs : List Node} {i j i' j' : Nat} (h : Selects cs i j) (h' : Selects cs i' j') :
    i = i' ∧ j = j' := by
  obtain ⟨hi, hj⟩ := h
  obtain ⟨hi', hj'⟩ := h'
  obtain rfl := hi.unique hi'
  exact ⟨rfl, hj.unique hj'⟩

theorem selects_select2 {cs : List Node} (h : 2 ≤ cs.length) :
    Selects cs (select2 cs).1 (select2 cs).2 := by
  have hi := leastOf_leastPos (cs := cs) (by rintro rfl; simp at h)
  refine ⟨hi, (leastOf_leastPos fun he => ?_).of_eraseIdx hi.1⟩
  have hlen := List.length_eraseIdx_of_lt hi.1
  rw [show cs.eraseIdx (leastPos cs) = [] from he, List.length_nil] at hlen
  omega

theorem selects_iff {cs : List Node} (h : 2 ≤ cs.length) {i j : Nat} :
    Selects cs i j ↔ select2 cs = (i, j) := by
  constructor
  · intro hs
    obtain ⟨hi, hj⟩ := (selects_select2 h).unique hs
    exact Prod.ext hi hj
  · intro he
    have := selects_select2 h
    rwa [he] at this

theorem Selects.weightAt_le {cs : List Node} {i j : Nat} (h : Selects cs i j) :
    weightAt cs i ≤ weightAt cs j := by
  obtain ⟨⟨-, -, hle⟩, hj, -⟩ := h
  have := hle j hj trivial
  omega

/-- Settles O7: Select2 meets the relation, which has one pair at most; on weights 2, 1 the lighter entry
stands second. -/
theorem selectionMeetsItsRule : Obligations.SelectionMeetsItsRule := by
  refine ⟨fun cs h => ⟨fun i j => selects_iff h, ?_, (selects_select2 h).weightAt_le⟩, ?_⟩
  · obtain ⟨-, -, hne⟩ := select2_bounds h
    exact hne
  · exact ⟨[.leaf 0#8 2, .leaf 0#8 1], by decide, by decide⟩

theorem select2_pair (a b : Node) :
    select2 [a, b] = if a.weight ≤ b.weight then (0, 1) else (1, 0) := by
  by_cases hw : a.weight ≤ b.weight <;> simp [select2, leastPos, leastEntry, hw]

theorem buildTree_pair (limit : Nat) (a b : Node) :
    buildTree limit [a, b] = .ok (if a.weight ≤ b.weight then .root a b else .root b a) := by
  change pairRounds limit 0 [a, b] = _
  simp only [pairRounds, pairOff, select2_pair]
  split <;> rfl

/-- Settles O11: the first round is the last one, and its pair is what Select2 answers on two candidates. -/
theorem lastPairIsNotSummed : Obligations.LastPairIsNotSummed := by
  intro s a b hc
  rw [exec_build, hc, buildTree_pair]

/-! ### A round of BUILD as a relation (40_tree_builder.md R116, R119 to R122) -/

theorem exists_selects {cs : List Node} (h : 2 ≤ cs.length) :
    ∃ i j a b, Selects cs i j ∧ cs[i]? = some a ∧ cs[j]? = some b := by
  obtain ⟨hi, hj, -⟩ := select2_bounds h
  exact ⟨_, _, _, _, selects_select2 h, List.getElem?_eq_getElem hi, List.getElem?_eq_getElem hj⟩

section
variable {limit n : Nat} {cs : List Node} {i j : Nat} {a b : Node} (hs : Selects cs i j)
  (ha : cs[i]? = some a) (hb : cs[j]? = some b)
include hs ha hb

theorem Selects.pairOff_eq : pairOff cs = ⟨a, b, withoutPair cs i j⟩ := by
  simp [pairOff, (selects_iff hs.two_le).1 hs, withoutPair, ha, hb]

theorem Selects.perm : (a :: b :: withoutPair cs i j).Perm cs := by
  simpa [hs.pairOff_eq ha hb] using pairOff_perm hs.two_le

theorem Selects.withoutPair_length : (withoutPair cs i j).length + 2 = cs.length := by
  simpa using (hs.perm ha hb).length_eq

theorem Selects.exists_eq_succ (hlen : cs.length = n + 2) (hne : withoutPair cs i j ≠ []) :
    ∃ m, n = m + 1 := by
  have := hs.withoutPair_length ha hb
  have := List.length_pos_iff.2 hne
  exact Nat.exists_eq_succ_of_ne_zero (by omega)

/-- A round takes two candidates and appends one. -/
theorem Selects.round_length (hlen : cs.length = n + 1 + 2) (x : Node) :
    (withoutPair cs i j ++ [x]).length = n + 2 := by
  have := hs.withoutPair_length ha hb
  rw [List.length_append, List.length_singleton]
  omega

/-- With nothing left the pair becomes the Root's children, however many rounds are allowed. -/
theorem Selects.pairRounds_last (hnil : withoutPair cs i j = []) :
    pairRounds limit n cs = .ok (.root a b) := by
  cases n <;> simp [pairRounds, hs.pairOff_eq ha hb, hnil]

theorem Selects.pairRounds_succ (hne : withoutPair cs i j ≠ []) :
    pairRounds limit (n + 1) cs =
      if limit ≤ a.weight + b.weight then .error .weightOverflow
      else pairRounds limit n (withoutPair cs i j ++ [.internal a b (a.weight + b.weight)]) := by
  simp [pairRounds, hs.pairOff_eq ha hb, hne]

end

/-- The loop does what the relation says. -/
theorem builds_pairRounds {limit n : Nat} {cs : List Node} (hlen : cs.length = n + 2) :
    Builds limit cs (pairRounds limit n cs) := by
  induction n generalizing cs with
  | zero =>
    obtain ⟨i, j, a, b, hs, ha, hb⟩ := exists_selects (cs := cs) (by omega)
    have hrest := hs.withoutPair_length ha hb
    have hnil : withoutPair cs i j = [] := List.length_eq_zero_iff.1 (by omega)
    rw [hs.pairRounds_last ha hb hnil]
    exact .last hs ha hb hnil
  | succ n ih =>
    obtain ⟨i, j, a, b, hs, ha, hb⟩ := exists_selects (cs := cs) (by omega)
    have hrest := hs.withoutPair_length ha hb
    have hne : withoutPair cs i j ≠ [] := List.ne_nil_of_length_pos (by omega)
    rw [hs.pairRounds_succ ha hb hne]
    split
    · rename_i hsum
      exact .overflow hs ha hb hne hsum
    · rename_i hsum
      exact .round hs ha hb hne (Nat.lt_of_not_le hsum)
        (ih (hs.round_length ha hb hlen _))

/-- The relation holds of nothing but what the loop does. -/
theorem Builds.eq_pairRounds {limit n : Nat} {cs : List Node} {r : Except Code Node}
    (h : Builds limit cs r) (hlen : cs.length = n + 2) : r = pairRounds limit n cs := by
  induction h generalizing n with
  | last hs ha hb hnil => rw [hs.pairRounds_last ha hb hnil]
  | overflow hs ha hb hne hsum =>
    obtain ⟨m, rfl⟩ := hs.exists_eq_succ ha hb hlen hne
    rw [hs.pairRounds_succ ha hb hne, if_pos hsum]
  | round hs ha hb hne hsum _ ih =>
    obtain ⟨m, rfl⟩ := hs.exists_eq_succ ha hb hlen hne
    rw [hs.pairRounds_succ ha hb hne, if_neg (Nat.not_le.2 hsum)]
    exact ih (hs.round_length ha hb hlen _)

theorem builds_iff {limit : Nat} {cs : List Node} (h : 2 ≤ cs.length) {r : Except Code Node} :
    Builds limit cs r ↔ r = buildTree limit cs := by
  rw [buildTree_of_two_le h]
  refine ⟨fun hb => hb.eq_pairRounds (by omega), ?_⟩
  rintro rfl
  exact builds_pairRounds (by omega)

/-- Settles O8: the relation has exactly the one result of `buildTree`. -/
theorem buildFollowsTheRounds : Obligations.BuildFollowsTheRounds := by
  refine ⟨rfl, fun s => ⟨fun hc => ?_, fun x hc => ?_, fun hlen => ?_⟩⟩
  · rw [exec_build, hc]
    rfl
  · rw [exec_build, hc]
    rfl
  · exact ⟨_, (builds_iff hlen).2 rfl, fun r' => (builds_iff hlen).1, exec_build s⟩

/-! ### What the rounds keep (40_tree_builder.md R120, R123, R124) -/

@[simp] theorem weight_internal (l r : Node) (w : Nat) : (Node.internal l r w).weight = w := rfl

/-- A round keeps the total weight, and the pair's sum is part of it. -/
theorem Builds.exists_ok_of_sum_lt {limit : Nat} {cs : List Node} {r : Except Code Node}
    (h : Builds limit cs r) (hsum : (cs.map Node.weight).sum < limit) : ∃ t, r = .ok t := by
  induction h with
  | last => exact ⟨_, rfl⟩
  | overflow hs ha hb _ hover =>
    have := ((hs.perm ha hb).map Node.weight).sum_eq
    simp only [List.map_cons, List.sum_cons] at this
    omega
  | round hs ha hb _ _ _ ih =>
    have := ((hs.perm ha hb).map Node.weight).sum_eq
    simp only [List.map_cons, List.sum_cons] at this
    apply ih
    simp only [List.map_append, List.map_cons, List.map_nil, List.sum_append, List.sum_cons, List.sum_nil,
      weight_internal]
    omega

theorem buildTree_exists_ok_of_sum_lt {limit : Nat} {cs : List Node} (hne : cs ≠ [])
    (hsum : (cs.map Node.weight).sum < limit) : ∃ t, buildTree limit cs = .ok t := by
  match cs, hne with
  | [_], _ => exact ⟨_, rfl⟩
  | _ :: _ :: _, _ => exact ((builds_iff (by simp)).2 rfl).exists_ok_of_sum_lt hsum

/-- Settles O10: the rounds keep the total, so no pair's sum reaches the limit. -/
theorem buildSucceedsBelowTheLimit : Obligations.BuildSucceedsBelowTheLimit := by
  intro s hne hsum
  obtain ⟨t, ht⟩ := buildTree_exists_ok_of_sum_lt hne hsum
  exact ⟨t, by rw [exec_build, ht]⟩

/-- A round loses and adds no leaf. -/
theorem Builds.leaves_perm {limit : Nat} {cs : List Node} {r : Except Code Node} {t : Node}
    (h : Builds limit cs r) (hr : r = .ok t) : t.leaves.Perm (cs.flatMap Node.leaves) := by
  induction h with
  | last hs ha hb hnil =>
    cases hr
    simpa [hnil, Node.leaves] using (hs.perm ha hb).flatMap_right Node.leaves
  | overflow => cases hr
  | @round cs i j a b _ hs ha hb _ _ _ ih =>
    calc t.leaves.Perm _ := ih hr
      _ = (withoutPair cs i j).flatMap Node.leaves ++ (a.leaves ++ b.leaves) := by simp [Node.leaves]
      List.Perm _ (a.leaves ++ b.leaves ++ (withoutPair cs i j).flatMap Node.leaves) :=
        List.perm_append_comm
      _ = (a :: b :: withoutPair cs i j).flatMap Node.leaves := by simp
      List.Perm _ (cs.flatMap Node.leaves) := (hs.perm ha hb).flatMap_right Node.leaves

/-- Every Internal a round makes holds the sum of its children's weights. -/
theorem Builds.summed {limit : Nat} {cs : List Node} {r : Except Code Node} {t : Node}
    (h : Builds limit cs r) (hr : r = .ok t) (hc : ∀ x ∈ cs, x.summed = true) : t.summed = true := by
  induction h with
  | last hs ha hb =>
    cases hr
    have hmem := fun x hx => hc x ((hs.perm ha hb).subset hx)
    simp only [List.forall_mem_cons] at hmem
    simp [Node.summed, hmem]
  | overflow => cases hr
  | round hs ha hb _ _ _ ih =>
    have hmem := fun x hx => hc x ((hs.perm ha hb).subset hx)
    simp only [List.forall_mem_cons] at hmem
    obtain ⟨hsa, hsb, hrest⟩ := hmem
    exact ih hr (by simpa [or_imp, forall_and, Node.summed, hsa, hsb] using hrest)

theorem isCandidate_summed_leaves {limit : Nat} {x : Node} (h : x.isCandidate limit = true) :
    x.summed = true ∧ x.leaves.length = 1 := by
  cases x with
  | leaf sym w => exact ⟨rfl, rfl⟩
  | internal l r w => cases h
  | root l r => cases h

theorem flatMap_leaves_length {limit : Nat} {cs : List Node}
    (h : cs.all (Node.isCandidate limit) = true) : (cs.flatMap Node.leaves).length = cs.length := by
  induction cs with
  | nil => rfl
  | cons x xs ih =>
    simp only [List.all_cons, Bool.and_eq_true] at h
    obtain ⟨hx, hxs⟩ := h
    obtain ⟨-, hone⟩ := isCandidate_summed_leaves hx
    simp only [List.flatMap_cons, List.length_append, List.length_cons, hone, ih hxs]
    omega

/-- Settles O12: what a round keeps, from candidates that are single leaves. -/
theorem builtTreeShape : Obligations.BuiltTreeShape := by
  intro s u t hlen hcand he ht
  have hb := buildTree_of_exec_build he ht
  have hbuilds := (builds_iff hlen).2 hb.symm
  have hperm := hbuilds.leaves_perm rfl
  obtain ⟨htree, hnodes⟩ := buildTree_ok hcand hb
  refine ⟨hperm, hperm.length_eq.trans (flatMap_leaves_length hcand), by omega, htree,
    hbuilds.summed rfl fun x hx => ?_⟩
  exact (isCandidate_summed_leaves (List.all_eq_true.1 hcand x hx)).1

/-- A path to a leaf has a sibling subtree, hence another leaf, at each of its steps. -/
theorem height_lt_leaves_length (n : Node) : n.height < n.leaves.length := by
  induction n with
  | leaf sym w => simp [Node.height, Node.leaves]
  | internal l r w ihl ihr =>
    simp only [Node.height, Node.leaves, List.length_append]
    omega
  | root l r ihl ihr =>
    simp only [Node.height, Node.leaves, List.length_append]
    omega

/-- Settles O13: the tree has n leaves, and no tree is as high as its leaves are many. -/
theorem builtTreeHeight : Obligations.BuiltTreeHeight := by
  intro s u t hlen hcand he ht
  obtain ⟨-, hleaves, -⟩ := builtTreeShape s u t hlen hcand he ht
  have := height_lt_leaves_length t
  omega

/-! ### The forward scan (40_tree_builder.md R126 (a)) -/

theorem weightAt_concat_of_lt {cs : List Node} {k : Nat} (x : Node) (h : k < cs.length) :
    weightAt (cs ++ [x]) k = weightAt cs k := by
  simp [weightAt, List.getElem?_append_left, h]

theorem weightAt_concat_length (cs : List Node) (x : Node) :
    weightAt (cs ++ [x]) cs.length = x.weight := by
  simp [weightAt]

/-- A running minimum after the candidates `cs`: the least of the positions that `ok` admits and its weight,
or `none` if there is no such position. -/
def IsMinimum (cs : List Node) (ok : Nat → Prop) : Option (Nat × Nat) → Prop
  | none => ∀ k < cs.length, ¬ok k
  | some (k, w) => LeastOf cs ok k ∧ weightAt cs k = w

/-- A minimum stays when the next candidate is not admitted or does not replace it. -/
theorem IsMinimum.concat_keep {cs : List Node} {ok ok' : Nat → Prop} {m : Option (Nat × Nat)} {x : Node}
    (h : IsMinimum cs ok m) (hok : ∀ k < cs.length, (ok' k ↔ ok k))
    (hx : ok' cs.length → replaces x.weight m = false) : IsMinimum (cs ++ [x]) ok' m := by
  cases m with
  | none =>
    intro k hk hok'
    rcases Nat.lt_or_eq_of_le (Nat.le_of_lt_succ (by simpa using hk)) with hlt | rfl
    · exact h k hlt ((hok k hlt).1 hok')
    · cases hx hok'
  | some kw =>
    obtain ⟨k, w⟩ := kw
    obtain ⟨⟨hk, hokk, hle⟩, rfl⟩ := h
    refine ⟨⟨by simpa using Nat.lt_succ_of_lt hk, (hok k hk).2 hokk, fun l hl hokl => ?_⟩,
      weightAt_concat_of_lt x hk⟩
    rw [weightAt_concat_of_lt x hk]
    rcases Nat.lt_or_eq_of_le (Nat.le_of_lt_succ (by simpa using hl)) with hlt | rfl
    · rw [weightAt_concat_of_lt x hlt]
      exact hle l hlt ((hok l hlt).1 hokl)
    · have hx := hx hokl
      simp only [replaces, decide_eq_false_iff_not] at hx
      rw [weightAt_concat_length]
      omega

/-- A candidate that replaces a minimum is the new one. -/
theorem IsMinimum.concat_replace {cs : List Node} {ok : Nat → Prop} {m : Option (Nat × Nat)} {x : Node}
    (h : IsMinimum cs ok m) (hok : ok cs.length) (hx : replaces x.weight m = true) :
    IsMinimum (cs ++ [x]) ok (some (cs.length, x.weight)) := by
  refine ⟨⟨by simp, hok, fun l hl hokl => ?_⟩, weightAt_concat_length cs x⟩
  rw [weightAt_concat_length]
  rcases Nat.lt_or_eq_of_le (Nat.le_of_lt_succ (by simpa using hl)) with hlt | rfl
  · rw [weightAt_concat_of_lt x hlt]
    cases m with
    | none => exact absurd hokl (h l hlt)
    | some kw =>
      obtain ⟨⟨-, -, hle⟩, hw⟩ := h
      have := hle l hlt hokl
      simp only [replaces, decide_eq_true_eq] at hx
      omega
  · exact .inr ⟨(weightAt_concat_length cs x).symm, le_rfl⟩

/-- The two running minima after the candidates `cs`: of all positions, and of those other than the first
minimum's. -/
structure Scanned (cs : List Node) (m : Minima) : Prop where
  smaller : IsMinimum cs (fun _ => True) m.smaller
  bigger : IsMinimum cs (fun k => m.smaller.map Prod.fst ≠ some k) m.bigger

theorem scanned_nil : Scanned [] ⟨none, none⟩ where
  smaller := fun _ hk => absurd hk (Nat.not_lt_zero _)
  bigger := fun _ hk => absurd hk (Nat.not_lt_zero _)

/-- The position a running minimum holds is one of the candidates before it. -/
theorem IsMinimum.fst_ne_length {cs : List Node} {ok : Nat → Prop} {m : Option (Nat × Nat)}
    (h : IsMinimum cs ok m) : m.map Prod.fst ≠ some cs.length := by
  cases m with
  | none => simp
  | some kw =>
    obtain ⟨⟨hk, -⟩, -⟩ := h
    simpa using hk.ne

/-- One candidate of the scan: a new least makes the old least the least of the others. -/
theorem Scanned.concat {cs : List Node} {m : Minima} (h : Scanned cs m) (x : Node) :
    Scanned (cs ++ [x]) (scanOne m cs.length x.weight) := by
  obtain ⟨hs, hb⟩ := h
  unfold scanOne
  split
  · rename_i hnew
    refine ⟨hs.concat_replace trivial hnew, hs.concat_keep (fun k hk => ?_) fun hne => ?_⟩
    · simpa using hk.ne'
    · exact absurd rfl hne
  · rename_i hold
    have hs' := hs.concat_keep (x := x) (fun _ _ => Iff.rfl) fun _ => by simpa using hold
    split
    · rename_i hnew
      exact ⟨hs', hb.concat_replace hs.fst_ne_length hnew⟩
    · rename_i hold'
      exact ⟨hs', hb.concat_keep (fun _ _ => Iff.rfl) fun _ => by simpa using hold'⟩

theorem scanned_scanFrom {cs : List Node} {m : Minima} (h : Scanned cs m) (xs : List Node) :
    Scanned (cs ++ xs) (scanFrom cs.length xs m) := by
  induction xs generalizing cs m with
  | nil => simpa [scanFrom] using h
  | cons x xs ih => simpa [scanFrom] using ih (h.concat x)

/-- Settles O14: the minima of a whole list of two or more are the pair that the relation has. -/
theorem forwardScanSelectsTheSame : Obligations.ForwardScanSelectsTheSame := by
  intro cs hlen
  obtain ⟨hs, hb⟩ : Scanned cs (scanFrom 0 cs ⟨none, none⟩) := scanned_scanFrom scanned_nil cs
  unfold scanPair
  generalize scanFrom 0 cs ⟨none, none⟩ = m at hs hb
  obtain ⟨smaller, bigger⟩ := m
  match smaller, bigger with
  | none, _ => exact absurd trivial (hs 0 (by omega))
  | some (i, _), none =>
    have h0 : i = 0 := by simpa using hb 0 (by omega)
    have h1 : i = 1 := by simpa using hb 1 (by omega)
    omega
  | some (i, _), some (j, _) =>
    obtain ⟨hi, -⟩ := hs
    obtain ⟨hj, -⟩ := hb
    exact ((selects_iff hlen).1 ⟨hi, by simpa [eq_comm] using hj⟩).symm

/-! ### The priority queue (40_tree_builder.md R126 (b)) -/

theorem queuedBefore_iff {a b : Queued} : queuedBefore a b = true ↔
    a.node.weight < b.node.weight ∨ (a.node.weight = b.node.weight ∧ a.seq ≤ b.seq) := by
  simp [queuedBefore]

theorem enqueue_eq_orderedInsert (e : Queued) (q : List Queued) :
    enqueue e q = q.orderedInsert (fun a b => queuedBefore a b = true) e := by
  induction q with
  | nil => rfl
  | cons x q ih => simp [enqueue, ih]

theorem enqueue_perm (e : Queued) (q : List Queued) : (enqueue e q).Perm (e :: q) := by
  rw [enqueue_eq_orderedInsert]
  exact List.perm_orderedInsert _ e q

/-- A queue in key order. -/
abbrev KeyOrdered (q : List Queued) : Prop := q.Pairwise fun a b => queuedBefore a b = true

theorem enqueue_keyOrdered (e : Queued) {q : List Queued} (h : KeyOrdered q) :
    KeyOrdered (enqueue e q) := by
  have : Std.Total fun a b : Queued => queuedBefore a b = true :=
    ⟨fun a b => by simp only [queuedBefore_iff]; omega⟩
  have : IsTrans Queued fun a b => queuedBefore a b = true :=
    ⟨fun a b c => by simp only [queuedBefore_iff]; omega⟩
  rw [enqueue_eq_orderedInsert]
  exact h.orderedInsert e q

/-- The queue `q` holds the candidate list `cs`: it is in key order and holds the entries `es`, which are the
candidates in list order, their sequence numbers rising and all below the next number `k`. -/
structure Queues (k : Nat) (cs : List Node) (q es : List Queued) : Prop where
  nodes : es.map Queued.node = cs
  rising : es.Pairwise fun a b => a.seq < b.seq
  below : ∀ e ∈ es, e.seq < k
  ordered : KeyOrdered q
  perm : q.Perm es

theorem Queues.length_eq {k : Nat} {cs : List Node} {q es : List Queued} (h : Queues k cs q es) :
    q.length = cs.length := by
  rw [h.perm.length_eq, ← h.nodes, List.length_map]

/-- A candidate appended to the list is pushed with the next number (R122, R126 (b)). -/
theorem Queues.push {k : Nat} {cs : List Node} {q es : List Queued} (h : Queues k cs q es) (x : Node) :
    Queues (k + 1) (cs ++ [x]) (enqueue ⟨k, x⟩ q) (es ++ [⟨k, x⟩]) where
  nodes := by simp [h.nodes]
  rising := List.pairwise_append.2 ⟨h.rising, List.pairwise_singleton _ _, by simpa using h.below⟩
  below := by
    intro e he
    rcases List.mem_append.1 he with he | he
    · exact Nat.lt_succ_of_lt (h.below e he)
    · obtain rfl := List.mem_singleton.1 he
      exact Nat.lt_succ_self k
  ordered := enqueue_keyOrdered _ h.ordered
  perm := calc
    (enqueue ⟨k, x⟩ q).Perm (⟨k, x⟩ :: q) := enqueue_perm _ q
    List.Perm _ (⟨k, x⟩ :: es) := h.perm.cons _
    List.Perm _ (es ++ [⟨k, x⟩]) := (List.perm_append_singleton _ _).symm

theorem Queues.pushAll {k : Nat} {cs : List Node} {q es : List Queued} (h : Queues k cs q es)
    (xs : List Node) : ∃ es', Queues (k + xs.length) (cs ++ xs) (enqueueAll k xs q) es' := by
  induction xs generalizing k cs q es with
  | nil => exact ⟨es, by simpa [enqueueAll] using h⟩
  | cons x xs ih =>
    obtain ⟨es', h'⟩ := ih (h.push x)
    exact ⟨es', by simpa [enqueueAll, Nat.add_assoc, Nat.add_comm 1] using h'⟩

theorem queues_enqueueAll (cs : List Node) : ∃ es, Queues cs.length cs (enqueueAll 0 cs []) es := by
  have hnil : Queues 0 [] [] [] := ⟨rfl, .nil, by simp, .nil, .nil⟩
  simpa using hnil.pushAll cs

/-- Sequence numbers rise along the list, so the entry that is least by key is the candidate that is least
by weight and position. -/
theorem Queues.leastPos_eq {k m : Nat} {cs : List Node} {q es : List Queued} (h : Queues k cs q es)
    (hm : m < es.length) (hle : ∀ e ∈ es, queuedBefore es[m] e = true) : leastPos cs = m := by
  have hlen : es.length = cs.length := h.perm.length_eq.symm.trans h.length_eq
  have hw : ∀ l (hl : l < es.length), weightAt cs l = es[l].node.weight := by
    intro l hl
    simp [weightAt, ← h.nodes, hl]
  refine (leastOf_leastPos (List.ne_nil_of_length_pos (by omega))).unique
    ⟨by omega, trivial, fun l hl _ => ?_⟩
  have hl : l < es.length := by omega
  rw [hw m hm, hw l hl]
  refine (queuedBefore_iff.1 (hle _ (List.getElem_mem hl))).imp_right fun ⟨heq, hseq⟩ => ⟨heq, ?_⟩
  by_contra hlt
  have := List.pairwise_iff_getElem.1 h.rising l m hl hm (by omega)
  omega

/-- The front of the queue is the least candidate, and the rest of the queue holds the list without it. -/
theorem Queues.pop {k : Nat} {cs : List Node} {a : Queued} {q es : List Queued}
    (h : Queues k cs (a :: q) es) :
    cs[leastPos cs]? = some a.node ∧
      Queues k (cs.eraseIdx (leastPos cs)) q (es.eraseIdx (leastPos cs)) := by
  obtain ⟨hfront, hq⟩ := List.pairwise_cons.1 h.ordered
  obtain ⟨m, hm, rfl⟩ := List.getElem_of_mem (h.perm.subset (List.mem_cons_self ..))
  have hle : ∀ e ∈ es, queuedBefore es[m] e = true := by
    intro e he
    rcases List.mem_cons.1 (h.perm.symm.subset he) with rfl | he
    · exact queuedBefore_iff.2 (.inr ⟨rfl, le_rfl⟩)
    · exact hfront e he
  obtain rfl := h.leastPos_eq hm hle
  have hget : cs[leastPos cs]? = some es[leastPos cs].node := by
    calc cs[leastPos cs]? = (es.map Queued.node)[leastPos cs]? := by rw [h.nodes]
      _ = some es[leastPos cs].node := by rw [List.getElem?_map, List.getElem?_eq_getElem hm]; rfl
  exact ⟨hget,
    { nodes := by rw [← List.eraseIdx_map, h.nodes]
      rising := h.rising.eraseIdx _
      below := fun e he => h.below e ((List.eraseIdx_sublist _ _).subset he)
      ordered := hq
      perm := (h.perm.trans (List.getElem_cons_eraseIdx_perm hm).symm).cons_inv }⟩

theorem eraseIdx_succ_eraseIdx {α : Type} (cs : List α) {i j : Nat} (h : i ≤ j) :
    (cs.eraseIdx (j + 1)).eraseIdx i = (cs.eraseIdx i).eraseIdx j := by
  induction cs generalizing i j with
  | nil => rfl
  | cons x xs ih =>
    cases i with
    | zero => rfl
    | succ i =>
      obtain ⟨j, rfl⟩ : ∃ m, j = m + 1 := ⟨j - 1, by omega⟩
      simp [ih (Nat.le_of_succ_le_succ h)]

/-- Removing the pair, the higher position first (R119), is removing `i` and then what was picked from the
list without it. -/
theorem withoutPair_eq_eraseIdx_eraseIdx (cs : List Node) (i j : Nat) :
    withoutPair cs i (if j < i then j else j + 1) = (cs.eraseIdx i).eraseIdx j := by
  unfold withoutPair
  split
  · rw [max_eq_left (by omega), min_eq_right (by omega)]
  · rw [max_eq_right (by omega), min_eq_left (by omega), eraseIdx_succ_eraseIdx cs (by omega)]

/-- Two pops take out the pair that a round selects. -/
theorem Queues.popPair {k : Nat} {cs : List Node} {a b : Queued} {q es : List Queued}
    (h : Queues k cs (a :: b :: q) es) :
    ∃ i j es', Selects cs i j ∧ cs[i]? = some a.node ∧ cs[j]? = some b.node ∧
      Queues k (withoutPair cs i j) q es' := by
  have hlen := h.length_eq
  obtain ⟨ha, h1⟩ := h.pop
  obtain ⟨hb, h2⟩ := h1.pop
  rw [List.getElem?_eraseIdx, ← apply_ite (cs[·]?)] at hb
  rw [← withoutPair_eq_eraseIdx_eraseIdx] at h2
  simp only [List.length_cons] at hlen
  exact ⟨_, _, _, selects_select2 (by omega), ha, hb, h2⟩

theorem queueRounds_zero (limit k : Nat) (a b : Queued) (q : List Queued) :
    queueRounds limit 0 k (a :: b :: q) = .ok (.root a.node b.node) := rfl

theorem queueRounds_succ {limit n k : Nat} {a b : Queued} {q : List Queued} (h : q ≠ []) :
    queueRounds limit (n + 1) k (a :: b :: q) =
      if limit ≤ a.node.weight + b.node.weight then .error .weightOverflow
      else queueRounds limit n (k + 1)
        (enqueue ⟨k, .internal a.node b.node (a.node.weight + b.node.weight)⟩ q) := by
  cases q with
  | nil => exact absurd rfl h
  | cons x q => rfl

/-- Round by round the queue and the candidate list stay in step. -/
theorem Queues.queueRounds_eq {limit n k : Nat} {cs : List Node} {q es : List Queued}
    (h : Queues k cs q es) (hlen : cs.length = n + 2) :
    queueRounds limit n k q = pairRounds limit n cs := by
  induction n generalizing k cs q es with
  | zero =>
    obtain ⟨a, b, rfl⟩ := List.length_eq_two.1 (h.length_eq.trans hlen)
    obtain ⟨i, j, es', hs, ha, hb, h'⟩ := h.popPair
    have hnil : withoutPair cs i j = [] := List.length_eq_zero_iff.1 h'.length_eq.symm
    rw [queueRounds_zero, hs.pairRounds_last ha hb hnil]
  | succ n ih =>
    have hq := h.length_eq.trans hlen
    match q, hq with
    | a :: b :: x :: q, _ =>
      obtain ⟨i, j, es', hs, ha, hb, h'⟩ := h.popPair
      have hrest := h'.length_eq
      have hne : withoutPair cs i j ≠ [] := List.ne_nil_of_length_pos (by simp [← hrest])
      rw [queueRounds_succ (List.cons_ne_nil x q), hs.pairRounds_succ ha hb hne,
        ih (h'.push _) (hs.round_length ha hb hlen _)]

/-- Settles O15: the queue of all candidates holds the list, and then stays in step with it. -/
theorem priorityQueueBuildsTheSame : Obligations.PriorityQueueBuildsTheSame := by
  intro limit cs
  match cs with
  | [] => rfl
  | [x] => rfl
  | x :: y :: zs =>
    obtain ⟨es, h⟩ := queues_enqueueAll (x :: y :: zs)
    rw [queueBuild, h.queueRounds_eq (by simp)]
    rfl

end Sys2Proof.Machine
end

section
/-! PROOFS for the statements of 41_conversion_map.md: the table DERIVE makes, its code words and their
lengths, the tree port and the descent. -/

namespace Sys2Proof.Machine

/-! ### The entries of a canonical table -/

/-- In canonical form the entries of the list are the ones reads answer. -/
theorem mem_iff_mapGet {m : List (Byte × Bits)} (h : mapWf m) {sym : Byte} {c : Bits} :
    (sym, c) ∈ m ↔ mapGet m sym = some c := by
  induction m with
  | nil => simp
  | cons e m ih =>
    obtain ⟨he, hm⟩ := List.pairwise_cons.1 h
    by_cases hs : e.1 = sym
    · subst hs
      have habsent : mapGet m e.1 = none := mapGet_eq_none_of_lt he
      simp [mapGet, Prod.ext_iff, ih hm, habsent, eq_comm]
    · simp [mapGet, Prod.ext_iff, ih hm, hs, Ne.symm hs]

theorem mem_keys_iff_mapGet {m : List (Byte × Bits)} (h : mapWf m) {sym : Byte} :
    sym ∈ m.map Prod.fst ↔ (mapGet m sym).isSome = true := by
  simp [Option.isSome_iff_exists, ← mem_iff_mapGet h]

theorem keys_nodup {m : List (Byte × Bits)} (h : mapWf m) : (m.map Prod.fst).Nodup :=
  List.pairwise_map.2 (h.imp fun hlt heq => by simp [heq] at hlt)

/-! ### The walk as a list of recorded paths (41_conversion_map.md R141, R142) -/

theorem paths_map_fst (n : Node) (p : Bits) : (n.paths p).map Prod.fst = n.symbols := by
  induction n generalizing p with
  | leaf sym w => rfl
  | internal l r _ ihl ihr | root l r ihl ihr =>
    simp [Node.paths, Node.symbols, Node.leaves, ihl, ihr]

/-- The walk records the paths of the leaves, left to right. -/
theorem walk_eq_foldl (n : Node) (p : Bits) (m : List (Byte × Bits)) :
    walk n p m = (n.paths p).foldl (fun m e => mapSet m e.1 e.2) m := by
  induction n generalizing p m with
  | leaf sym w => rfl
  | internal l r _ ihl ihr | root l r ihl ihr => simp [walk, Node.paths, ihl, ihr]

/-- Of the entries recorded for one symbol the last stays. -/
theorem mapGet_foldl_mapSet (es m : List (Byte × Bits)) (sym : Byte) :
    mapGet (es.foldl (fun m e => mapSet m e.1 e.2) m) sym =
      ((es.reverse.find? fun e => decide (e.1 = sym)).map Prod.snd).or (mapGet m sym) := by
  induction es generalizing m with
  | nil => simp
  | cons e es ih =>
    by_cases hs : e.1 = sym <;> simp [ih, mapGet_mapSet, hs]

theorem mapGet_codeTable (t : Node) (sym : Byte) : mapGet (codeTable t) sym =
    ((t.paths []).reverse.find? fun e => decide (e.1 = sym)).map Prod.snd := by
  simp [codeTable, walk_eq_foldl, mapGet_foldl_mapSet]

theorem mem_paths_of_mapGet {t : Node} {sym : Byte} {c : Bits}
    (h : mapGet (codeTable t) sym = some c) : (sym, c) ∈ t.paths [] := by
  rw [mapGet_codeTable, Option.map_eq_some_iff] at h
  obtain ⟨e, hfind, rfl⟩ := h
  obtain rfl : e.1 = sym := by simpa using List.find?_some hfind
  simpa using List.mem_of_find?_eq_some hfind

theorem mapGet_codeTable_isSome_iff {t : Node} {sym : Byte} :
    (mapGet (codeTable t) sym).isSome = true ↔ sym ∈ t.symbols := by
  simp [mapGet_codeTable, ← paths_map_fst t []]

/-- Settles O16: DERIVE stores the table of the tree, and reading that table finds the last path. -/
theorem deriveRecordsThePaths : Obligations.DeriveRecordsThePaths := by
  refine ⟨rfl, fun s => ⟨fun t ht => ⟨codeTable t, ?_, mapGet_codeTable t⟩, fun ht => ?_⟩⟩ <;>
    simp only [exec, execDerive, ht] <;> rfl

/-! ### A path leads to its leaf (41_conversion_map.md R141, R150) -/

theorem nodeAt_append (n : Node) (p q : Bits) :
    nodeAt n (p ++ q) = (nodeAt n p).bind fun m => nodeAt m q := by
  induction p generalizing n with
  | nil => rfl
  | cons b p ih =>
    cases hc : childOf n b <;> simp [nodeAt, hc, ih]

/-- A Leaf has no child. -/
theorem nodeAt_leaf_eq_some {sym : Byte} {w : Nat} {p : Bits} {m : Node} :
    nodeAt (.leaf sym w) p = some m ↔ p = [] ∧ m = .leaf sym w := by
  cases p <;> simp [nodeAt, childOf, eq_comm]

theorem nodeAt_of_mem_paths {n : Node} {p q : Bits} {sym : Byte} (h : (sym, q) ∈ n.paths p) :
    ∃ c w, q = p ++ c ∧ nodeAt n c = some (.leaf sym w) := by
  induction n generalizing p with
  | leaf s w =>
    obtain ⟨rfl, rfl⟩ : sym = s ∧ q = p := by simpa [Node.paths] using h
    exact ⟨[], w, by simp, rfl⟩
  | internal l r _ ihl ihr | root l r ihl ihr =>
    rcases List.mem_append.1 h with h | h
    · obtain ⟨c, w, rfl, hc⟩ := ihl h
      exact ⟨false :: c, w, by simp, hc⟩
    · obtain ⟨c, w, rfl, hc⟩ := ihr h
      exact ⟨true :: c, w, by simp, hc⟩

theorem nodeAt_of_mapGet {t : Node} {sym : Byte} {c : Bits} (h : mapGet (codeTable t) sym = some c) :
    ∃ w, nodeAt t c = some (.leaf sym w) := by
  obtain ⟨c, w, rfl, hc⟩ := nodeAt_of_mem_paths (mem_paths_of_mapGet h)
  exact ⟨w, hc⟩

/-- Settles O17: below the leaf that the shorter word reaches there is no other. -/
theorem codeWordsArePrefixFree : Obligations.CodeWordsArePrefixFree := by
  rintro t a b ca _ hne ha hb ⟨rest, rfl⟩
  obtain ⟨v, hv⟩ := nodeAt_of_mapGet ha
  obtain ⟨w, hw⟩ := nodeAt_of_mapGet hb
  rw [nodeAt_append, hv, Option.bind_some, nodeAt_leaf_eq_some] at hw
  obtain ⟨-, heq⟩ := hw
  cases heq
  exact hne rfl

/-- Settles O21: the port shows the node the path reaches. -/
theorem portReachesEachCodeWord : Obligations.PortReachesEachCodeWord := by
  intro s t sym c ht hc
  obtain ⟨w, hw⟩ := nodeAt_of_mapGet hc
  simp [portView, ht, hw]

/-! ### BUILD, then DERIVE (41_conversion_map.md R146) -/

/-- One candidate is doubled; more become the leaves of the tree, each once. -/
theorem buildTree_leaves {limit : Nat} {cs : List Node} {t : Node} (h : buildTree limit cs = .ok t) :
    (∃ x, cs = [x] ∧ t.leaves = x.leaves ++ x.leaves) ∨
      (2 ≤ cs.length ∧ t.leaves.Perm (cs.flatMap Node.leaves)) := by
  match cs with
  | [] => cases h
  | [x] =>
    cases h
    exact .inl ⟨x, rfl, rfl⟩
  | x :: y :: zs =>
    have hlen : 2 ≤ (x :: y :: zs).length := by simp
    exact .inr ⟨hlen, ((builds_iff hlen).2 h.symm).leaves_perm rfl⟩

theorem buildTree_mem_symbols {limit : Nat} {cs : List Node} {t : Node} (h : buildTree limit cs = .ok t)
    (sym : Byte) : sym ∈ t.symbols ↔ sym ∈ cs.flatMap Node.symbols := by
  have hsym : cs.flatMap Node.symbols = (cs.flatMap Node.leaves).map Prod.fst := List.map_flatMap.symm
  rcases buildTree_leaves h with ⟨x, rfl, hx⟩ | ⟨-, hperm⟩
  · simp [Node.symbols, hx]
  · rw [hsym]
    exact (hperm.map Prod.fst).mem_iff

theorem buildTree_leaves_length {limit : Nat} {cs : List Node} {t : Node}
    (hc : cs.all (Node.isCandidate limit) = true) (h : buildTree limit cs = .ok t) :
    t.leaves.length = if cs.length = 1 then 2 else cs.length := by
  have hlen := flatMap_leaves_length hc
  rcases buildTree_leaves h with ⟨x, rfl, hx⟩ | ⟨htwo, hperm⟩
  · have hone : x.leaves.length = 1 := by simpa using hlen
    simp [hx, hone]
  · rw [if_neg (by omega), hperm.length_eq, hlen]

/-- A successful BUILD holds the tree of its candidates. -/
theorem exec_build_ok {s u : State} (he : exec .build s = .next u) (hok : u.code = .ok) :
    ∃ t, u.tree = some t ∧ buildTree (weightLimit s.cfg) s.cand = .ok t := by
  rw [exec_build] at he
  cases he
  cases hb : buildTree (weightLimit s.cfg) s.cand with
  | error e =>
    obtain rfl : e = .ok := by simpa [afterBuild, hb] using hok
    simpa using buildTree_error hb
  | ok t => exact ⟨t, rfl, rfl⟩

theorem map_of_exec_derive {s v : State} {t : Node} (ht : s.tree = some t)
    (he : exec .derive s = .next v) : v.map = codeTable t := by
  simp only [exec, execDerive, ht] at he
  cases he
  rfl

/-- Settles O18: the table's keys are the tree's symbols, which are the loaded ones; both lists are free of
repetitions, so they have one length. -/
theorem tableCoversTheLoadedSymbols : Obligations.TableCoversTheLoadedSymbols := by
  intro s u v _ hcand hnodup hbuild hok hderive
  obtain ⟨t, ht, hb⟩ := exec_build_ok hbuild hok
  have hmap := map_of_exec_derive ht hderive
  have hcovers (sym : Byte) : (mapEntry v sym).isSome = true ↔ sym ∈ candSymbols s := by
    rw [mapEntry, hmap, mapGet_codeTable_isSome_iff, buildTree_mem_symbols hb, candSymbols]
  have hwf : mapWf v.map := hmap ▸ codeTable_wf t
  have hkeys : (v.map.map Prod.fst).Perm (candSymbols s) :=
    (List.perm_ext_iff_of_nodup (keys_nodup hwf) hnodup).2 fun sym =>
      (mem_keys_iff_mapGet hwf).trans (hcovers sym)
  refine ⟨hcovers, ?_, t, ht, buildTree_leaves_length hcand hb⟩
  calc v.map.length = (candSymbols s).length := by simpa using hkeys.length_eq
    _ = (s.cand.flatMap Node.leaves).length := by simp [candSymbols, Node.symbols, List.length_flatMap]
    _ = s.cand.length := flatMap_leaves_length hcand

/-! ### The code lengths (41_conversion_map.md R147) -/

theorem length_add_height_le {n m : Node} {c : Bits} (h : nodeAt n c = some m) :
    c.length + m.height ≤ n.height := by
  induction c generalizing n with
  | nil =>
    cases h
    simp
  | cons b c ih =>
    cases n with
    | leaf sym w => simp [nodeAt_leaf_eq_some] at h
    | internal l r _ | root l r =>
      have hchild := ih (n := if b then r else l) h
      have hmax : (if b then r else l).height ≤ max l.height r.height := by cases b <;> simp
      simp only [Node.height, List.length_cons]
      omega

/-- A held tree is a Root, so its leaves lie below it. -/
theorem ne_nil_of_nodeAt_leaf {t : Node} {c : Bits} {sym : Byte} {w : Nat} (ht : t.isTree = true)
    (h : nodeAt t c = some (.leaf sym w)) : c ≠ [] := by
  rintro rfl
  cases h
  cases ht

/-- The Kraft equality of a subtree at the end of the path `p`, in units of the depth `d`. -/
theorem kraft_paths {n : Node} {p : Bits} {d : Nat} (h : p.length + n.height ≤ d) :
    ((n.paths p).map fun e => 2 ^ (d - e.2.length)).sum = 2 ^ (d - p.length) := by
  induction n generalizing p with
  | leaf sym w => simp [Node.paths]
  | internal l r _ ihl ihr | root l r ihl ihr =>
    simp only [Node.height] at h
    have hhalf : d - p.length = (d - (p.length + 1)) + 1 := by omega
    have hdeeper (b : Bool) : (p ++ [b]).length = p.length + 1 := by simp
    rw [Node.paths, List.map_append, List.sum_append, ihl (by rw [hdeeper]; omega),
      ihr (by rw [hdeeper]; omega), hdeeper, hdeeper, hhalf, pow_succ, mul_two]

/-- With unique symbols nothing is overwritten: the table is the list of paths in another order. -/
theorem codeTable_perm_paths {t : Node} (h : t.symbols.Nodup) : (codeTable t).Perm (t.paths []) := by
  have hkeys : ((t.paths []).map Prod.fst).Nodup := by rwa [paths_map_fst]
  have htable : (codeTable t).Nodup := (keys_nodup (codeTable_wf t)).of_map _
  refine (List.perm_ext_iff_of_nodup htable (hkeys.of_map _)).2 fun ⟨sym, c⟩ => ?_
  rw [mem_iff_mapGet (codeTable_wf t)]
  refine ⟨mem_paths_of_mapGet, fun hmem => ?_⟩
  have hsym : sym ∈ t.symbols := paths_map_fst t [] ▸ List.mem_map_of_mem hmem
  obtain ⟨c', hc'⟩ := Option.isSome_iff_exists.1 (mapGet_codeTable_isSome_iff.2 hsym)
  have heq := List.inj_on_of_nodup_map hkeys (mem_paths_of_mapGet hc') hmem rfl
  cases heq
  exact hc'

/-- Settles O19: a code word ends at a leaf below the Root; the table holds the paths, whose lengths meet
the equality by halving at each branch. -/
theorem codeLengthsMeetKraft : Obligations.CodeLengthsMeetKraft := by
  refine fun t ht => ⟨fun sym c hc => ?_, fun hnodup => ?_⟩
  · obtain ⟨w, hw⟩ := nodeAt_of_mapGet hc
    exact ⟨List.length_pos_iff.2 (ne_nil_of_nodeAt_leaf ht hw),
      le_of_add_le_left (length_add_height_le hw)⟩
  · rw [((codeTable_perm_paths hnodup).map _).sum_eq]
    exact kraft_paths (p := []) (by simp)

/-! ### The descent (41_conversion_map.md R151, R152) -/

/-- Following a path to a leaf, the descent emits the leaf's symbol and goes on from the Root. -/
theorem descendFrom_append_of_nodeAt {t cur : Node} {c : Bits} {sym : Byte} {w : Nat} (hc : c ≠ [])
    (h : nodeAt cur c = some (.leaf sym w)) (rest : Bits) :
    descendFrom t cur (c ++ rest) = (sym :: (descend t rest).1, (descend t rest).2) := by
  induction c generalizing cur with
  | nil => exact absurd rfl hc
  | cons b c ih =>
    cases hchild : childOf cur b with
    | none => simp [nodeAt, hchild] at h
    | some n =>
      replace h : nodeAt n c = some (.leaf sym w) := by simpa [nodeAt, hchild] using h
      cases n with
      | leaf s v =>
        obtain ⟨rfl, heq⟩ := nodeAt_leaf_eq_some.1 h
        cases heq
        simp [descendFrom, descendBit, hchild, descend]
      | internal l r _ | root l r =>
        have hne : c ≠ [] := by
          rintro rfl
          cases h
        simp [descendFrom, descendBit, hchild, ih hne h]

/-- Settles O20: each code word leads from the Root to its leaf and back; on the one-symbol tree every bit
does. -/
theorem descentInvertsEncoding : Obligations.DescentInvertsEncoding := by
  refine ⟨fun t msg ht _ hmsg => ?_, fun x v w bits => ?_, fun x v w => ?_⟩
  · induction msg with
    | nil => rfl
    | cons x msg ih =>
      obtain ⟨hx, hrest⟩ := List.forall_mem_cons.1 hmsg
      obtain ⟨c, hc⟩ := Option.isSome_iff_exists.1 hx
      obtain ⟨w, hw⟩ := nodeAt_of_mapGet hc
      rw [List.flatMap_cons, hc, Option.getD_some, descend,
        descendFrom_append_of_nodeAt (ne_nil_of_nodeAt_leaf ht hw) hw, ih hrest]
  · induction bits with
    | nil => rfl
    | cons b bits ih =>
      obtain ⟨u, hu⟩ : ∃ u, nodeAt (.root (.leaf x v) (.leaf x w)) [b] = some (.leaf x u) := by
        cases b
        · exact ⟨v, rfl⟩
        · exact ⟨w, rfl⟩
      rw [← List.singleton_append, descend, descendFrom_append_of_nodeAt (by simp) hu, ih]
      rfl
  · simp [mapGet_codeTable, Node.paths]

end Sys2Proof.Machine
end

section
/-! PROOFS for the statements of 42_codec_serialize.md: what SERIALIZE appends and how long it is, and the
tree a container determines. -/

namespace Sys2Proof.Machine

/-! ### SERIALIZE's two ends (42_codec_serialize.md R160, R164) -/

theorem exec_serialize_of_tree {s : State} {t : Node} (ht : s.tree = some t) :
    exec .serialize s = .next (finish .ok (outWrite (container t) s)) := by
  simp only [exec, execSerialize, ht]

theorem exec_serialize_of_none {s : State} (ht : s.tree = none) :
    exec .serialize s = .next (finish .noTree s) := by
  simp only [exec, execSerialize, ht]

/-- Settles O23: with a tree its container is appended, and the body of a Root is its tag and the two
subtrees' bodies; with none only the code is set. -/
theorem serializeAppendsTheContainer : Obligations.SerializeAppendsTheContainer := by
  refine ⟨rfl, fun s => ⟨fun l r ht => ?_, exec_serialize_of_none⟩⟩
  have hbytes : container (.root l r) = headerBytes ++ [0xff#8] ++ ser l ++ ser r ++ footerBytes := by
    simp [container, ser, tagRootByte]
  simp [exec_serialize_of_tree ht, hbytes, finish, outWrite, ended]

/-! ### The container's length (42_codec_serialize.md R163) -/

theorem container_length (t : Node) : (container t).length = 3 * t.leaves.length + 58 := by
  have hbody := ser_length t
  simp only [container, List.length_append, headerBytes_length, footerBytes_length, headerLength,
    footerLength]
  omega

/-- Settles O24: OUT gains the container, 59 bytes of signatures and a body three bytes a leaf, less one. -/
theorem serializedLength : Obligations.SerializedLength := by
  intro s
  cases ht : s.tree with
  | none => exact ⟨_, exec_serialize_of_none ht, by simp, by simp⟩
  | some t => exact ⟨_, exec_serialize_of_tree ht, by simp [container_length], by simp⟩

/-! ### Weights leave no trace (42_codec_serialize.md R165, 10_state.md R23) -/

@[simp] theorem paths_unweighted (n : Node) (p : Bits) : n.unweighted.paths p = n.paths p := by
  induction n generalizing p with
  | leaf sym w => rfl
  | internal l r _ ihl ihr | root l r ihl ihr => simp [Node.paths, ihl, ihr]

@[simp] theorem ser_unweighted (n : Node) : ser n.unweighted = ser n := by
  induction n with
  | leaf sym w => rfl
  | internal l r _ ihl ihr | root l r ihl ihr => simp [ser, ihl, ihr]

theorem codeTable_unweighted (t : Node) : codeTable t.unweighted = codeTable t := by
  simp [codeTable, walk_eq_foldl]

theorem codeTable_congr {t t' : Node} (h : t.unweighted = t'.unweighted) :
    codeTable t = codeTable t' := by
  rw [← codeTable_unweighted t, h, codeTable_unweighted]

theorem container_congr {t t' : Node} (h : t.unweighted = t'.unweighted) :
    container t = container t' := by
  rw [container, ← ser_unweighted t, h, ser_unweighted, container]

/-- Settles O22: table and container are those of the tree with every weight 0. -/
theorem weightsPlayNoPart : Obligations.WeightsPlayNoPart :=
  fun _ _ h => ⟨codeTable_congr h, container_congr h⟩

/-! ### The container determines the tree (42_codec_serialize.md R166, 30_encoding.md R97) -/

/-- The first byte of a body tells the kind of its node, so a body is read off the front of any bytes in
one way only. -/
theorem unweighted_eq_of_ser_append_eq {n m : Node} {a b : List Byte} (h : ser n ++ a = ser m ++ b) :
    n.unweighted = m.unweighted ∧ a = b := by
  -- Where the kinds differ `simp only` refutes `h` by the two tag bytes; one case is left.
  induction n generalizing m a b with
  | leaf sym w =>
    cases m <;> simp only [ser, tagLeafByte, tagInternalByte, tagRootByte, List.cons_append,
      List.nil_append, List.cons.injEq, BitVec.reduceEq, false_and, true_and] at h
    simpa using h
  | internal l r _ ihl ihr | root l r ihl ihr =>
    cases m <;> simp only [ser, tagLeafByte, tagInternalByte, tagRootByte, List.cons_append,
      List.append_assoc, List.cons.injEq, BitVec.reduceEq, false_and, true_and] at h
    obtain ⟨hl, hrest⟩ := ihl h
    obtain ⟨hr, hab⟩ := ihr hrest
    simp [hl, hr, hab]

theorem container_eq_iff {t t' : Node} : container t = container t' ↔ t.unweighted = t'.unweighted := by
  refine ⟨fun h => ?_, container_congr⟩
  have hbody : ser t ++ footerBytes = ser t' ++ footerBytes := by
    simpa only [container, List.append_assoc, List.append_cancel_left_eq] using h
  exact (unweighted_eq_of_ser_append_eq hbody).1

/-- Settles O25: a container determines the tree but for its weights, which the table does not see. -/
theorem containerIsInjective : Obligations.ContainerIsInjective :=
  fun _ _ _ _ => ⟨container_eq_iff, fun h => codeTable_congr (container_eq_iff.1 h)⟩

end Sys2Proof.Machine
end

section
/-! PROOFS for the statements of 43_codec_deserialize.md: what a read of a container answers, the wire tags,
and the byte machine against the recursion. -/

namespace Sys2Proof.Machine

/-! ### A read by its outcome (43_codec_deserialize.md R178 to R189) -/

/-- How a read of IN can go: the six ways in which DESERIALIZE's three phases end, in stream order. -/
inductive Reads (capacity : Option Nat) : List Byte → Except ReadError (Node × List Byte) → Prop where
  /-- IN ends inside the header (R178) -/
  | shortHeader {inp} : inp.length < headerLength →
      Reads capacity inp (.error ⟨.unexpectedEndOfInput, inp.length, []⟩)
  /-- thirty bytes differ from HEADER, at `k` first (R180) -/
  | badHeader {h body k} : h.length = headerLength → firstDiff h headerBytes = some k →
      Reads capacity (h ++ body) (.error ⟨.badHeaderSignature, k, body⟩)
  /-- the body fails (R181 to R186) -/
  | badBody {body e} : parseNode capacity body.length true ⟨body, headerLength, 0⟩ = .error e →
      Reads capacity (headerBytes ++ body) (.error e)
  /-- IN ends inside the footer (R187) -/
  | shortFooter {body t c} : parseNode capacity body.length true ⟨body, headerLength, 0⟩ = .ok (t, c) →
      c.inp.length < footerLength →
      Reads capacity (headerBytes ++ body) (.error ⟨.unexpectedEndOfInput, c.off + c.inp.length, []⟩)
  /-- 29 bytes differ from FOOTER, at `k` first (R188) -/
  | badFooter {body t f rest off count k} :
      parseNode capacity body.length true ⟨body, headerLength, 0⟩ = .ok (t, ⟨f ++ rest, off, count⟩) →
      f.length = footerLength → firstDiff f footerBytes = some k →
      Reads capacity (headerBytes ++ body) (.error ⟨.badFooterSignature, off + k, rest⟩)
  /-- all three phases pass (R189) -/
  | good {body t rest off count} :
      parseNode capacity body.length true ⟨body, headerLength, 0⟩ =
        .ok (t, ⟨footerBytes ++ rest, off, count⟩) →
      Reads capacity (headerBytes ++ body) (.ok (t, rest))

@[simp] theorem firstDiff_self (bs : List Byte) : firstDiff bs bs = none :=
  (firstDiff_eq_none rfl).2 rfl

theorem firstDiff_lt {a b : List Byte} {k : Nat} (h : firstDiff a b = some k) : k < a.length := by
  obtain ⟨-, x, -, hx, -⟩ := firstDiff_eq_some h
  exact (List.getElem?_eq_some_iff.1 hx).1

theorem inReadN_append {front : List Byte} {n : Nat} (h : front.length = n) (rest : List Byte) :
    inReadN n (front ++ rest) = some (front, rest) :=
  inReadN_eq_some.2 ⟨h, rfl⟩

/-- The way a read goes determines its answer. -/
theorem Reads.eq {capacity : Option Nat} {inp : List Byte} {r : Except ReadError (Node × List Byte)}
    (h : Reads capacity inp r) : readContainer capacity inp = r := by
  cases h with
  | shortHeader hlen => simp [readContainer, inReadN_eq_none.2 hlen]
  | badHeader hlen hdiff => simp [readContainer, inReadN_append hlen, hdiff]
  | badBody hbody => simp [readContainer, inReadN_append headerBytes_length, hbody]
  | shortFooter hbody hlen =>
    simp [readContainer, inReadN_append headerBytes_length, hbody, inReadN_eq_none.2 hlen]
  | badFooter hbody hlen hdiff =>
    simp [readContainer, inReadN_append headerBytes_length, hbody, inReadN_append hlen, hdiff]
  | good hbody =>
    simp [readContainer, inReadN_append headerBytes_length, hbody, inReadN_append footerBytes_length]

/-- Every read goes one of the six ways. -/
theorem reads_readContainer (capacity : Option Nat) (inp : List Byte) :
    Reads capacity inp (readContainer capacity inp) := by
  unfold readContainer
  split
  · rename_i hshort
    exact .shortHeader (inReadN_eq_none.1 hshort)
  rename_i h body hh
  obtain ⟨hlen, rfl⟩ := inReadN_eq_some.1 hh
  split
  · rename_i k hdiff
    exact .badHeader hlen hdiff
  rename_i hdiff
  obtain rfl := (firstDiff_eq_none hlen).1 hdiff
  split
  · rename_i e hbody
    exact .badBody hbody
  rename_i t c hbody
  split
  · rename_i hshort
    exact .shortFooter hbody (inReadN_eq_none.1 hshort)
  rename_i f rest hf
  obtain ⟨inp, off, count⟩ := c
  obtain ⟨flen, rfl⟩ := inReadN_eq_some.1 hf
  split
  · rename_i k hdiff
    exact .badFooter hbody flen hdiff
  · rename_i hdiff
    obtain rfl := (firstDiff_eq_none flen).1 hdiff
    exact .good hbody

/-! ### The recursive parse by the tag it meets (43_codec_deserialize.md R181 to R186) -/

/-- The tag that opens a frame of each kind (30_encoding.md R88, R89). -/
def FrameKind.tagByte : FrameKind → Byte
  | .root => tagRootByte
  | .internal => tagInternalByte

/-- Whether a frame's tag belongs in the first position (R183). -/
def FrameKind.first : FrameKind → Bool
  | .root => true
  | .internal => false

/-- The instruction that tag stands for. -/
def FrameKind.instr : FrameKind → Instr
  | .root => .tagRoot
  | .internal => .tagInternal

/-- A byte in a tag position opens a frame, begins a leaf, or is invalid there (R182, R183). -/
theorem decodeTag_cases (first : Bool) (b : Byte) :
    (∃ kind : FrameKind, first = kind.first ∧ b = kind.tagByte ∧ decodeTag first b = kind.instr) ∨
      (first = false ∧ b = tagLeafByte ∧ decodeTag first b = .tagLeaf) ∨
      decodeTag first b = .tagInvalid first b := by
  cases first with
  | true =>
    by_cases hr : b = tagRootByte
    · exact .inl ⟨.root, rfl, hr, by simp [decodeTag, hr, FrameKind.instr]⟩
    · exact .inr (.inr (by simp [decodeTag, hr]))
  | false =>
    by_cases hi : b = tagInternalByte
    · exact .inl ⟨.internal, rfl, hi, by simp [decodeTag, hi, FrameKind.instr]⟩
    · by_cases hl : b = tagLeafByte
      · exact .inr (.inl ⟨rfl, hl, by simp [decodeTag, hl, tagInternalByte_ne_leaf.symm]⟩)
      · exact .inr (.inr (by simp [decodeTag, hi, hl]))

section
variable {capacity : Option Nat} {fuel off count : Nat} {first : Bool} {b : Byte} {rest : List Byte}

theorem parseNode_nil :
    parseNode capacity fuel first ⟨[], off, count⟩ = .error ⟨.unexpectedEndOfInput, off, []⟩ := by
  cases fuel <;> rfl

/-- The parse's own test of a tag is the decoder's. -/
theorem tag_refused_iff :
    ((first && b != tagRootByte) || (!first && b != tagInternalByte && b != tagLeafByte)) = true ↔
      decodeTag first b = .tagInvalid first b := by
  constructor
  · intro hrefused
    rcases decodeTag_cases first b with ⟨kind, rfl, rfl, -⟩ | ⟨rfl, rfl, -⟩ | hinvalid
    · cases kind <;> cases hrefused
    · cases hrefused
    · exact hinvalid
  · intro hinvalid
    by_contra haccepted
    rcases tag_accepted haccepted with ⟨rfl, rfl⟩ | ⟨rfl, rfl | rfl⟩ <;> cases hinvalid

theorem parseNode_invalid (h : decodeTag first b = .tagInvalid first b) :
    parseNode capacity (fuel + 1) first ⟨b :: rest, off, count⟩ =
      .error ⟨.invalidNodeTag, off, rest⟩ := by
  simp only [parseNode, tag_refused_iff.2 h, if_true]

/-- A valid tag at the capacity (R186). -/
theorem parseNode_full (h : decodeTag first b ≠ .tagInvalid first b) (hfull : capacity = some count) :
    parseNode capacity (fuel + 1) first ⟨b :: rest, off, count⟩ =
      .error ⟨.capacityExceeded, off, rest⟩ := by
  simp only [parseNode, mt tag_refused_iff.1 h, Bool.false_eq_true, hfull, if_true, if_false]

theorem parseNode_leaf (sym : Byte) (hroom : capacity ≠ some count) :
    parseNode capacity (fuel + 1) false ⟨tagLeafByte :: sym :: rest, off, count⟩ =
      .ok (.leaf sym 0, ⟨rest, off + 2, count + 1⟩) := by
  simp [parseNode, hroom]

theorem parseNode_leaf_nil (hroom : capacity ≠ some count) :
    parseNode capacity (fuel + 1) false ⟨[tagLeafByte], off, count⟩ =
      .error ⟨.unexpectedEndOfInput, off + 1, []⟩ := by
  simp [parseNode, hroom]

/-- A Root's or an Internal's tag is followed by its two subtrees, left first (R181, R185). -/
theorem parseNode_open (kind : FrameKind) (hroom : capacity ≠ some count) :
    parseNode capacity (fuel + 1) kind.first ⟨kind.tagByte :: rest, off, count⟩ =
      (parseNode capacity fuel false ⟨rest, off + 1, count + 1⟩).bind fun left =>
        (parseNode capacity fuel false left.2).map fun right =>
          (closeFrame kind left.1 right.1, right.2) := by
  have hvalid : decodeTag kind.first kind.tagByte ≠ .tagInvalid kind.first kind.tagByte := by
    cases kind <;> decide
  have hleaf : kind.tagByte ≠ tagLeafByte := by cases kind <;> decide
  have hclose (l r : Node) :
      (if kind.tagByte = tagRootByte then Node.root l r else .internal l r 0) = closeFrame kind l r := by
    cases kind <;> rfl
  simp only [parseNode, mt tag_refused_iff.1 hvalid, Bool.false_eq_true, hroom, hleaf, hclose,
    if_false]
  cases parseNode capacity fuel false ⟨rest, off + 1, count + 1⟩ with
  | error e => rfl
  | ok left =>
    simp only [Except.bind]
    cases parseNode capacity fuel false left.2 <;> rfl
end

/-! ### The parse of a written tree (43_codec_deserialize.md R199) -/

/-- There is room for one node where there is room for several. -/
theorem ne_count_of_room {capacity : Option Nat} {count k : Nat} (hk : 0 < k)
    (hroom : ∀ m, capacity = some m → count + k ≤ m) : capacity ≠ some count := by
  intro hfull
  have := hroom count hfull
  omega

/-- The parse reads the node's written form off the front of any bytes, wherever the capacity has room for
it, and answers the node with every weight 0. -/
def ParsesBack (capacity : Option Nat) (first : Bool) (n : Node) : Prop :=
  ∀ (fuel off count : Nat) (rest : List Byte), (ser n).length ≤ fuel →
    (∀ m, capacity = some m → count + n.nodes ≤ m) →
    parseNode capacity fuel first ⟨ser n ++ rest, off, count⟩ =
      .ok (n.unweighted, ⟨rest, off + (ser n).length, count + n.nodes⟩)

theorem parsesBack_leaf (capacity : Option Nat) (sym : Byte) (w : Nat) :
    ParsesBack capacity false (.leaf sym w) := by
  intro fuel off count rest hfuel hroom
  cases fuel with
  | zero => simp [ser] at hfuel
  | succ fuel => exact parseNode_leaf sym (ne_count_of_room Nat.one_pos hroom)

/-- A node over two children, Root or Internal, parses back when its children do. -/
theorem parsesBack_pair {capacity : Option Nat} (kind : FrameKind) {n l r : Node}
    (hser : ser n = kind.tagByte :: (ser l ++ ser r)) (hnodes : n.nodes = 1 + l.nodes + r.nodes)
    (hclose : n.unweighted = closeFrame kind l.unweighted r.unweighted)
    (hl : ParsesBack capacity false l) (hr : ParsesBack capacity false r) :
    ParsesBack capacity kind.first n := by
  intro fuel off count rest hfuel hroom
  simp only [hser, hnodes, hclose, List.length_cons, List.length_append] at hfuel hroom ⊢
  obtain ⟨fuel, rfl⟩ : ∃ k, fuel = k + 1 := ⟨fuel - 1, by omega⟩
  have hleft := hl fuel (off + 1) (count + 1) (ser r ++ rest) (by omega)
    fun m hm => by have := hroom m hm; omega
  have hright := hr fuel (off + 1 + (ser l).length) (count + 1 + l.nodes) rest (by omega)
    fun m hm => by have := hroom m hm; omega
  rw [List.cons_append, List.append_assoc, parseNode_open kind (ne_count_of_room (by omega) hroom),
    hleft, Except.bind, hright, Except.map]
  simp only [Except.ok.injEq, Prod.mk.injEq, Cursor.mk.injEq, true_and]
  omega

theorem parsesBack_of_rootFree (capacity : Option Nat) {n : Node} (hn : n.rootFree = true) :
    ParsesBack capacity false n := by
  induction n with
  | leaf sym w => exact parsesBack_leaf capacity sym w
  | internal l r w ihl ihr =>
    obtain ⟨hl, hr⟩ : l.rootFree = true ∧ r.rootFree = true := by simpa [Node.rootFree] using hn
    exact parsesBack_pair .internal rfl rfl rfl (ihl hl) (ihr hr)
  | root l r => cases hn

theorem parsesBack_of_isTree (capacity : Option Nat) {t : Node} (ht : t.isTree = true) :
    ParsesBack capacity true t := by
  cases t with
  | leaf sym w => cases ht
  | internal l r w => cases ht
  | root l r =>
    obtain ⟨hl, hr⟩ : l.rootFree = true ∧ r.rootFree = true := by simpa [Node.isTree] using ht
    exact parsesBack_pair .root rfl rfl rfl (parsesBack_of_rootFree capacity hl)
      (parsesBack_of_rootFree capacity hr)

/-- The body phase on a held tree's written form, whatever follows it. -/
theorem parseNode_body {s : State} {t : Node} (ht : t.isTree = true) (hfits : fitsCapacity t s)
    (rest : List Byte) :
    parseNode s.cfg.nodeCapacity (ser t ++ rest).length true ⟨ser t ++ rest, headerLength, 0⟩ =
      .ok (t.unweighted, ⟨rest, headerLength + (ser t).length, t.nodes⟩) := by
  have := parsesBack_of_isTree s.cfg.nodeCapacity ht (ser t ++ rest).length headerLength 0 rest
    (by simp) fun m hm => by simpa using hfits m hm
  simpa using this

/-! ### DESERIALIZE's outcomes (43_codec_deserialize.md R175, R178 to R194) -/

theorem exec_deserialize_of_reads_ok {s : State} {inp rest : List Byte} {t : Node} (hinp : s.inp = inp)
    (h : Reads s.cfg.nodeCapacity inp (.ok (t, rest))) :
    exec .deserialize s = .next (afterRead (some t) .ok 0 rest s) :=
  execDeserialize_of_ok (hinp ▸ h.eq)

theorem exec_deserialize_of_reads_error {s : State} {inp : List Byte} {e : ReadError} (hinp : s.inp = inp)
    (h : Reads s.cfg.nodeCapacity inp (.error e)) :
    exec .deserialize s = .next (afterRead none e.code e.offset e.inp s) :=
  execDeserialize_of_error (hinp ▸ h.eq)

/-- Settles O26: the body phase reads the written tree back, and the table does not see the weights. -/
theorem deserializeRebuildsTheTree : Obligations.DeserializeRebuildsTheTree := by
  intro s t rest ht hfits hinp
  rw [container, List.append_assoc, List.append_assoc] at hinp
  exact ⟨exec_deserialize_of_reads_ok hinp (.good (parseNode_body ht hfits (footerBytes ++ rest))),
    codeTable_unweighted t⟩

/-- All that a DESERIALIZE can answer, with the read it comes from. -/
theorem exec_deserialize_cases {s u : State} (h : exec .deserialize s = .next u) :
    (∃ t rest, Reads s.cfg.nodeCapacity s.inp (.ok (t, rest)) ∧ u = afterRead (some t) .ok 0 rest s) ∨
      ∃ e, Reads s.cfg.nodeCapacity s.inp (.error e) ∧ e.code ≠ .ok ∧
        u = afterRead none e.code e.offset e.inp s := by
  have hread := reads_readContainer s.cfg.nodeCapacity s.inp
  cases hr : readContainer s.cfg.nodeCapacity s.inp with
  | error e =>
    rw [hr] at hread
    cases (exec_deserialize_of_reads_error rfl hread).symm.trans h
    refine .inr ⟨e, hread, fun hok => ?_, rfl⟩
    have := readContainer_error_code hr
    simp [hok] at this
  | ok r =>
    rw [hr] at hread
    cases (exec_deserialize_of_reads_ok rfl hread).symm.trans h
    exact .inl ⟨r.1, r.2, hread, rfl⟩

/-- Settles O27: a read that succeeded consumed the container of the tree it delivers. -/
theorem serializeReturnsTheBytes : Obligations.SerializeReturnsTheBytes := by
  intro s u h hok
  rcases exec_deserialize_cases h with ⟨t, rest, hread, rfl⟩ | ⟨e, -, he, rfl⟩
  · obtain ⟨hinp, -⟩ := readContainer_ok hread.eq
    exact ⟨container t, _, hinp, exec_serialize_of_tree rfl, rfl, rfl⟩
  · exact absurd hok he

/-- Settles O29: the read ends in the header, whatever its bytes are. -/
theorem shortHeaderFails : Obligations.ShortHeaderFails :=
  fun _ hlen => exec_deserialize_of_reads_error rfl (.shortHeader hlen)

/-- Signatures of one length that are not equal differ at a first position. -/
theorem firstDiff_of_ne {a b : List Byte} (hlen : a.length = b.length) (hne : a ≠ b) :
    ∃ k x y, firstDiff a b = some k ∧ k < b.length ∧ a.take k = b.take k ∧ a[k]? = some x ∧
      b[k]? = some y ∧ x ≠ y := by
  obtain ⟨k, hk⟩ := Option.ne_none_iff_exists'.1 (mt (firstDiff_eq_none hlen).1 hne)
  obtain ⟨htake, x, y, hx, hy, hxy⟩ := firstDiff_eq_some hk
  exact ⟨k, x, y, hk, hlen ▸ firstDiff_lt hk, htake, hx, hy, hxy⟩

/-- Settles O30: the comparison answers the first position that differs. -/
theorem badHeaderFails : Obligations.BadHeaderFails := by
  intro s h rest hinp hlen hne
  obtain ⟨k, x, y, hdiff, hk, htake, hx, hy, hxy⟩ := firstDiff_of_ne (b := headerBytes) hlen hne
  exact ⟨k, x, y, hk, htake, hx, hy, hxy, exec_deserialize_of_reads_error hinp (.badHeader hlen hdiff)⟩

/-- Settles O31: the decoder refuses every byte but 255 in the first position. -/
theorem firstTagMustBeRoot : Obligations.FirstTagMustBeRoot := by
  intro s b rest hinp hb
  have hinvalid : decodeTag true b = .tagInvalid true b := by simp [decodeTag, tagRootByte, hb]
  exact exec_deserialize_of_reads_error hinp (.badBody (parseNode_invalid hinvalid))

/-- Settles O32: after the written tree the footer is what is left, short or compared. -/
theorem badFooterFails : Obligations.BadFooterFails := by
  intro s t f rest ht hfits
  refine ⟨fun hinp hlen => ?_, fun hinp hlen hne => ?_⟩
  · have hlength : s.inp.length = headerLength + (ser t).length + f.length := by
      simp [hinp, Nat.add_assoc]
    rw [List.append_assoc] at hinp
    rw [hlength]
    exact exec_deserialize_of_reads_error hinp (.shortFooter (parseNode_body ht hfits f) hlen)
  · obtain ⟨k, x, y, hdiff, hk, htake, hx, hy, hxy⟩ := firstDiff_of_ne (b := footerBytes) hlen hne
    rw [List.append_assoc, List.append_assoc] at hinp
    exact ⟨k, x, y, hk, htake, hx, hy, hxy, exec_deserialize_of_reads_error hinp
      (.badFooter (parseNode_body ht hfits (f ++ rest)) hlen hdiff)⟩

/-- Settles O33: a failed read delivers no tree, and DESERIALIZE writes none of the other stores. -/
theorem failedReadLeavesNoTree : Obligations.FailedReadLeavesNoTree := by
  intro s u h hne
  rcases exec_deserialize_cases h with ⟨t, rest, -, rfl⟩ | ⟨e, -, -, rfl⟩
  · exact absurd rfl hne
  · exact ⟨rfl, rfl, fun _ => rfl, rfl, rfl, rfl, rfl, rfl, rfl⟩

/-- The bytes a failed read has consumed, by its code (R192, R193). -/
theorem Reads.error_consumed {capacity : Option Nat} {inp : List Byte} {e : ReadError}
    (h : Reads capacity inp (.error e)) : ∃ c, inp = c ++ e.inp ∧
      ((e.code = .unexpectedEndOfInput ∧ e.offset = c.length ∧ e.inp = []) ∨
       (e.code = .badHeaderSignature ∧ e.offset ≤ 29 ∧ c.length = 30) ∨
       (e.code = .invalidNodeTag ∧ 30 ≤ e.offset ∧ c.length = e.offset + 1) ∨
       (e.code = .capacityExceeded ∧ 30 ≤ e.offset ∧ c.length = e.offset + 1) ∨
       (e.code = .badFooterSignature ∧ e.offset < c.length ∧ c.length ≤ e.offset + 29)) := by
  cases h with
  | shortHeader hlen => exact ⟨inp, by simp, .inl ⟨rfl, rfl, rfl⟩⟩
  | @badHeader h body k hlen hdiff =>
    have hk := lt_of_lt_of_eq (firstDiff_lt hdiff) hlen
    exact ⟨h, rfl, .inr (.inl ⟨rfl, Nat.le_of_lt_succ hk, hlen⟩)⟩
  | @badBody body e hbody =>
    obtain ⟨used, rfl, hcode⟩ := parseNode_error (Nat.le_refl body.length) hbody
    refine ⟨headerBytes ++ used, by simp, ?_⟩
    simp only [List.length_append, headerBytes_length, headerLength] at hcode ⊢
    rcases hcode with ⟨hcode, hinp, hoff⟩ | ⟨hcode | hcode, hoff, hle⟩
    · exact .inl ⟨hcode, hoff, hinp⟩
    · exact .inr (.inr (.inl ⟨hcode, hle, hoff.symm⟩))
    · exact .inr (.inr (.inr (.inl ⟨hcode, hle, hoff.symm⟩)))
  | @shortFooter body t c hbody hlen =>
    obtain ⟨rfl, hoff, -⟩ := parseNode_ok hbody
    exact ⟨_, (List.append_nil _).symm, .inl ⟨rfl, by simp [hoff, Nat.add_assoc], rfl⟩⟩
  | @badFooter body t f rest off count k hbody hlen hdiff =>
    obtain ⟨rfl, hoff, -⟩ := parseNode_ok hbody
    have hk := firstDiff_lt hdiff
    refine ⟨headerBytes ++ ser t ++ f, by simp, .inr (.inr (.inr (.inr ⟨rfl, ?_⟩)))⟩
    simp only [List.length_append, headerBytes_length, headerLength, footerLength] at hoff hlen ⊢
    omega

/-- Settles O34: on success the container is consumed, on failure what its code says. -/
theorem offsetsTellTheBytesConsumed : Obligations.OffsetsTellTheBytesConsumed := by
  intro s u h
  rcases exec_deserialize_cases h with ⟨t, rest, hread, rfl⟩ | ⟨e, hread, -, rfl⟩
  · obtain ⟨hinp, -⟩ := readContainer_ok hread.eq
    exact ⟨container t, hinp, .inl ⟨rfl, rfl, t, rfl, container_length t⟩⟩
  · obtain ⟨c, hinp, hcode⟩ := hread.error_consumed
    exact ⟨c, hinp, .inr hcode⟩

/-! ### The wire tags (43_codec_deserialize.md R183, R186, R197) -/

section
variable {place : List Frame → Option Phase} {s : State} {stack : List Frame} {p : Phase}

theorem takeTag_of_invalid (hs : s.parse.phase = .tag stack) (hp : place stack = none) :
    takeTag place s = .next (failAt .invalidNodeTag (s.parse.off - 1) s) := by
  simp [takeTag, hs, hp]

theorem takeTag_of_full (hs : s.parse.phase = .tag stack) (hp : place stack = some p)
    (hfull : s.cfg.nodeCapacity = some s.parse.count) :
    takeTag place s = .next (failAt .capacityExceeded (s.parse.off - 1) s) := by
  simp [takeTag, hs, hp, hfull]

theorem takeTag_of_room (hs : s.parse.phase = .tag stack) (hp : place stack = some p)
    (hroom : s.cfg.nodeCapacity ≠ some s.parse.count) :
    takeTag place s = .next { s with parse := ⟨p, s.parse.off, s.parse.count + 1⟩ } := by
  simp [takeTag, hs, hp, hroom]
end

/-- Settles O35: only the empty stack has a place for the tag. -/
theorem tagRootTransition : Obligations.TagRootTransition := by
  intro s stack hs
  refine ⟨?_, ?_, fun hne => ?_⟩
  · rintro rfl hroom
    exact takeTag_of_room hs rfl hroom
  · rintro rfl hfull
    exact takeTag_of_full hs rfl hfull
  · obtain ⟨f, fs, rfl⟩ := List.exists_cons_of_ne_nil hne
    exact takeTag_of_invalid hs rfl

/-- Settles O36: only a stack with frames has a place for the tag. -/
theorem tagInternalTransition : Obligations.TagInternalTransition := by
  intro s stack hs
  refine ⟨fun hne hroom => ?_, fun hne hfull => ?_, ?_⟩
  · obtain ⟨f, fs, rfl⟩ := List.exists_cons_of_ne_nil hne
    exact takeTag_of_room hs rfl hroom
  · obtain ⟨f, fs, rfl⟩ := List.exists_cons_of_ne_nil hne
    exact takeTag_of_full hs rfl hfull
  · rintro rfl
    exact takeTag_of_invalid hs rfl

/-- Settles O37: only a stack with frames has a place for the tag. -/
theorem tagLeafTransition : Obligations.TagLeafTransition := by
  intro s stack hs
  refine ⟨?_, fun hne hfull => ?_, ?_⟩
  · rintro f fs rfl hroom
    exact takeTag_of_room hs rfl hroom
  · obtain ⟨f, fs, rfl⟩ := List.exists_cons_of_ne_nil hne
    exact takeTag_of_full hs rfl hfull
  · rintro rfl
    exact takeTag_of_invalid hs rfl

/-- Settles O38: no stack has a place for it. -/
theorem tagInvalidFails : Obligations.TagInvalidFails :=
  fun _ _ _ _ hs => takeTag_of_invalid (place := fun _ => none) hs rfl

/-! ### One byte of the machine (43_codec_deserialize.md R197) -/

/-- Settles O46: in the phase TAG the next thing to do is the decoded byte's instruction. -/
theorem stepRunsTheTag : Obligations.StepRunsTheTag := by
  intro s stack b rest hv hs hinp
  have hfetch : fetch s = .run (decodeTag stack.isEmpty b)
      { s with inp := rest, parse := { s.parse with off := s.parse.off + 1 } } := by
    simp only [fetch, hs, inRead_cons hinp]
  simp only [step, hv, if_true, hfetch]

theorem step_of_fetch_done {s t : State} (hv : s.cfg.valid = true) (h : fetch s = .done t) :
    step s = .next t := by
  simp only [step, hv, if_true, h]

/-- In a running DESERIALIZE: `s` with the bytes left and the transient state as given. -/
def State.reading (s : State) (inp : List Byte) (p : Parse) : State := { s with inp := inp, parse := p }

section
variable {s : State} (hv : s.cfg.valid = true) {stack fs : List Frame} {f : Frame} {b sym : Byte}
  {rest : List Byte} {off count : Nat}
include hv

theorem step_tag : step (s.reading (b :: rest) ⟨.tag stack, off, count⟩) =
    exec (decodeTag stack.isEmpty b) (s.reading rest ⟨.tag stack, off + 1, count⟩) :=
  stepRunsTheTag _ stack b rest hv rfl rfl

theorem step_tag_nil : step (s.reading [] ⟨.tag stack, off, count⟩) =
    .next (failAt .unexpectedEndOfInput off (s.reading [] Parse.idle)) :=
  step_of_fetch_done hv rfl

theorem step_sym : step (s.reading (sym :: rest) ⟨.sym f fs, off, count⟩) =
    .next (s.reading rest ⟨reduce f fs (.leaf sym 0), off + 1, count⟩) :=
  step_of_fetch_done hv rfl

theorem step_sym_nil : step (s.reading [] ⟨.sym f fs, off, count⟩) =
    .next (failAt .unexpectedEndOfInput off (s.reading [] Parse.idle)) :=
  step_of_fetch_done hv rfl

/-- A byte the decoder refuses ends the command at its own offset. -/
theorem step_tagInvalid (hb : decodeTag stack.isEmpty b = .tagInvalid stack.isEmpty b) :
    step (s.reading (b :: rest) ⟨.tag stack, off, count⟩) =
      .next (failAt .invalidNodeTag off (s.reading rest Parse.idle)) := by
  rw [step_tag hv, hb]
  exact tagInvalidFails _ stack _ _ rfl

theorem step_tagLeaf (hroom : s.cfg.nodeCapacity ≠ some count) :
    step (s.reading (tagLeafByte :: rest) ⟨.tag (f :: fs), off, count⟩) =
      .next (s.reading rest ⟨.sym f fs, off + 1, count + 1⟩) := by
  rw [step_tag hv]
  obtain ⟨hcounts, -, -⟩ := tagLeafTransition (s.reading rest ⟨.tag (f :: fs), off + 1, count⟩) _ rfl
  exact hcounts f fs rfl hroom

theorem step_tagOpen {kind : FrameKind} (hfirst : stack.isEmpty = kind.first)
    (hroom : s.cfg.nodeCapacity ≠ some count) :
    step (s.reading (kind.tagByte :: rest) ⟨.tag stack, off, count⟩) =
      .next (s.reading rest ⟨.tag (⟨kind, none⟩ :: stack), off + 1, count + 1⟩) := by
  rw [step_tag hv, hfirst]
  cases kind with
  | root =>
    obtain rfl : stack = [] := List.isEmpty_iff.1 hfirst
    obtain ⟨hopens, -, -⟩ := tagRootTransition (s.reading rest ⟨.tag [], off + 1, count⟩) _ rfl
    exact hopens rfl hroom
  | internal =>
    obtain ⟨hopens, -, -⟩ := tagInternalTransition (s.reading rest ⟨.tag stack, off + 1, count⟩) _ rfl
    exact hopens (List.isEmpty_eq_false_iff.1 hfirst) hroom

/-- A valid tag at the capacity ends the command at its own offset. -/
theorem step_tagFull (hb : decodeTag stack.isEmpty b ≠ .tagInvalid stack.isEmpty b)
    (hfull : s.cfg.nodeCapacity = some count) :
    step (s.reading (b :: rest) ⟨.tag stack, off, count⟩) =
      .next (failAt .capacityExceeded off (s.reading rest Parse.idle)) := by
  rw [step_tag hv]
  rcases decodeTag_cases stack.isEmpty b with ⟨kind, hfirst, -, hd⟩ | ⟨hfirst, -, hd⟩ | hd
  · rw [hd]
    cases kind with
    | root =>
      obtain ⟨-, hends, -⟩ := tagRootTransition (s.reading rest ⟨.tag stack, off + 1, count⟩) _ rfl
      exact hends (List.isEmpty_iff.1 hfirst) hfull
    | internal =>
      obtain ⟨-, hends, -⟩ := tagInternalTransition (s.reading rest ⟨.tag stack, off + 1, count⟩) _ rfl
      exact hends (List.isEmpty_eq_false_iff.1 hfirst) hfull
  · rw [hd]
    obtain ⟨-, hends, -⟩ := tagLeafTransition (s.reading rest ⟨.tag stack, off + 1, count⟩) _ rfl
    exact hends (List.isEmpty_eq_false_iff.1 hfirst) hfull
  · exact absurd hd hb
end

theorem State.eq_reading {s : State} {inp : List Byte} {phase : Phase} (hinp : s.inp = inp)
    (hphase : s.parse.phase = phase) : s = s.reading inp ⟨phase, s.parse.off, s.parse.count⟩ := by
  subst hinp hphase
  rfl

theorem run_succ_of_step {s t : State} (h : step s = .next t) (n : Nat) :
    Host.Core.run Sys2Proof.core (n + 1) s = Host.Core.run Sys2Proof.core n t := by
  have hcore : Sys2Proof.core.step s = .next t := h
  simp only [Host.Core.run, hcore]

/-- Settles O39: the tag's step counts the node and waits for the symbol, the symbol's step delivers the
leaf or meets the end of IN. -/
theorem leafTakesAnySymbol : Obligations.LeafTakesAnySymbol := by
  intro s f fs hv hs hroom
  refine ⟨fun sym rest hinp => ?_, fun hinp => ?_⟩
  · have htag := step_tagLeaf hv (f := f) (fs := fs) (rest := sym :: rest) (off := s.parse.off) hroom
    rw [← State.eq_reading (inp := tagLeafByte :: sym :: rest) hinp hs] at htag
    rw [run_succ_of_step htag, run_succ_of_step (step_sym hv)]
    rfl
  · have htag := step_tagLeaf hv (f := f) (fs := fs) (rest := []) (off := s.parse.off) hroom
    rw [← State.eq_reading (inp := [tagLeafByte]) hinp hs] at htag
    rw [run_succ_of_step htag, run_succ_of_step (step_sym_nil hv)]
    rfl

/-! ### Runs of the machine (43_codec_deserialize.md R198, R202) -/

theorem run_add_of_run {m : Nat} {s t : State} (h : Host.Core.run Sys2Proof.core m s = .next t) (n : Nat) :
    Host.Core.run Sys2Proof.core (m + n) s = Host.Core.run Sys2Proof.core n t := by
  induction m generalizing s with
  | zero =>
    cases h
    rw [Nat.zero_add]
  | succ m ih =>
    cases hs : step s with
    | next u =>
      rw [run_succ_of_step hs] at h
      rw [Nat.succ_add, run_succ_of_step hs, ih h]
    | fault r | refused r =>
      have hcore : Sys2Proof.core.step s = _ := hs
      simp only [Host.Core.run, hcore] at h
      cases h

/-- Stepping from `s` comes to `t`, at most one step for each byte of IN consumed on the way. -/
def Reaches (s t : State) : Prop :=
  ∃ n, n + t.inp.length ≤ s.inp.length ∧ Host.Core.run Sys2Proof.core n s = .next t

/-- Stepping from `s` comes to `t`, at most one step for each byte of IN and one for its end. -/
def EndsIn (s t : State) : Prop :=
  ∃ n, n ≤ s.inp.length + 1 ∧ Host.Core.run Sys2Proof.core n s = .next t

theorem Reaches.refl (s : State) : Reaches s s := ⟨0, by omega, rfl⟩

theorem Reaches.trans {s t u : State} (hst : Reaches s t) (htu : Reaches t u) : Reaches s u := by
  obtain ⟨m, hm, hrun⟩ := hst
  obtain ⟨n, hn, hrun'⟩ := htu
  exact ⟨m + n, by omega, (run_add_of_run hrun n).trans hrun'⟩

theorem Reaches.endsIn {s t u : State} (hst : Reaches s t) (htu : EndsIn t u) : EndsIn s u := by
  obtain ⟨m, hm, hrun⟩ := hst
  obtain ⟨n, hn, hrun'⟩ := htu
  exact ⟨m + n, by omega, (run_add_of_run hrun n).trans hrun'⟩

theorem run_one_of_step {s t : State} (h : step s = .next t) : Host.Core.run Sys2Proof.core 1 s = .next t :=
  run_succ_of_step h 0

theorem reaches_of_step {s t : State} (h : step s = .next t) (hlen : 1 + t.inp.length ≤ s.inp.length) :
    Reaches s t := ⟨1, hlen, run_one_of_step h⟩

theorem endsIn_of_step {s t : State} (h : step s = .next t) : EndsIn s t :=
  ⟨1, by omega, run_one_of_step h⟩

/-- A step that takes one byte. -/
theorem reaches_of_reading_step {s : State} {b : Byte} {rest : List Byte} {p q : Parse}
    (h : step (s.reading (b :: rest) p) = .next (s.reading rest q)) :
    Reaches (s.reading (b :: rest) p) (s.reading rest q) :=
  reaches_of_step h (by simp [State.reading, Nat.add_comm])

/-! ### The body: each frame is a suspended call of the recursion (R196, R198) -/

/-- A finished node meets the stack: with no frame there it is the tree, and the footer is next. -/
def deliver : List Frame → Node → Phase
  | [], n => .ftr n []
  | f :: fs, n => reduce f fs n

/-- The second child closes its frame and the node made meets the frames below. -/
theorem deliver_close (kind : FrameKind) (l r : Node) (stack : List Frame) :
    deliver (⟨kind, some l⟩ :: stack) r = deliver stack (closeFrame kind l r) := by
  cases stack <;> rfl

/-- The machine does from the state `a` what a parse answers: it delivers the node to the stack at the
cursor the parse leaves, or ends with the parse's error. -/
def Follows (s : State) (stack : List Frame) (a : State) : Except ReadError (Node × Cursor) → Prop
  | .ok (n, c) => Reaches a (s.reading c.inp ⟨deliver stack n, c.off, c.count⟩)
  | .error e => EndsIn a (failAt e.code e.offset (s.reading e.inp Parse.idle))

theorem Reaches.follows {s a b : State} {stack : List Frame} {r : Except ReadError (Node × Cursor)}
    (hab : Reaches a b) (h : Follows s stack b r) : Follows s stack a r := by
  cases r with
  | error e => exact hab.endsIn h
  | ok nc => exact hab.trans h

/-- The two children of an open frame, one after the other (R197): the first waits in the frame while the
machine does what the second parse answers. -/
theorem Follows.children {s a : State} {stack : List Frame} {kind : FrameKind}
    {left : Except ReadError (Node × Cursor)} {right : Cursor → Except ReadError (Node × Cursor)}
    (hleft : Follows s (⟨kind, none⟩ :: stack) a left)
    (hright : ∀ l c, left = .ok (l, c) → Follows s (⟨kind, some l⟩ :: stack)
      (s.reading c.inp ⟨.tag (⟨kind, some l⟩ :: stack), c.off, c.count⟩) (right c)) :
    Follows s stack a
      (left.bind fun lc => (right lc.2).map fun rc => (closeFrame kind lc.1 rc.1, rc.2)) := by
  cases left with
  | error e => exact hleft
  | ok lc =>
    have hsecond := hright lc.1 lc.2 rfl
    simp only [Follows, deliver, reduce_left] at hleft
    refine hleft.follows ?_
    cases hr : right lc.2 with
    | error e =>
      rw [hr] at hsecond
      simp only [Except.bind, hr, Except.map]
      exact hsecond
    | ok rc =>
      rw [hr] at hsecond
      simpa only [Except.bind, hr, Except.map, Follows, deliver_close] using hsecond

/-- A Leaf's tag and its symbol (R184). -/
theorem follows_leaf {s : State} (hv : s.cfg.valid = true) {fuel : Nat} {f : Frame} {fs : List Frame}
    {rest : List Byte} {off count : Nat} (hroom : s.cfg.nodeCapacity ≠ some count) :
    Follows s (f :: fs) (s.reading (tagLeafByte :: rest) ⟨.tag (f :: fs), off, count⟩)
      (parseNode s.cfg.nodeCapacity (fuel + 1) false ⟨tagLeafByte :: rest, off, count⟩) := by
  refine (reaches_of_reading_step (step_tagLeaf hv hroom)).follows ?_
  cases rest with
  | nil =>
    rw [parseNode_leaf_nil hroom]
    exact endsIn_of_step (step_sym_nil hv)
  | cons sym rest =>
    rw [parseNode_leaf sym hroom]
    exact reaches_of_reading_step (step_sym hv)

/-- Waiting for a tag, the machine does what the parse of the bytes left answers, in the first position
exactly when the stack is empty. -/
theorem follows_parseNode {s : State} (hv : s.cfg.valid = true) {fuel : Nat} {stack : List Frame}
    {inp : List Byte} {off count : Nat} (hfuel : inp.length ≤ fuel) :
    Follows s stack (s.reading inp ⟨.tag stack, off, count⟩)
      (parseNode s.cfg.nodeCapacity fuel stack.isEmpty ⟨inp, off, count⟩) := by
  induction fuel generalizing stack inp off count with
  | zero =>
    obtain rfl : inp = [] := List.length_eq_zero_iff.1 (Nat.le_zero.1 hfuel)
    exact endsIn_of_step (step_tag_nil hv)
  | succ fuel ih =>
    cases inp with
    | nil => exact endsIn_of_step (step_tag_nil hv)
    | cons b rest =>
      have hrest : rest.length ≤ fuel := Nat.le_of_succ_le_succ hfuel
      by_cases hb : decodeTag stack.isEmpty b = .tagInvalid stack.isEmpty b
      · rw [parseNode_invalid hb]
        exact endsIn_of_step (step_tagInvalid hv hb)
      by_cases hfull : s.cfg.nodeCapacity = some count
      · rw [parseNode_full hb hfull]
        exact endsIn_of_step (step_tagFull hv hb hfull)
      rcases decodeTag_cases stack.isEmpty b with ⟨kind, hfirst, rfl, -⟩ | ⟨hfirst, rfl, -⟩ | hinvalid
      · refine (reaches_of_reading_step (step_tagOpen hv hfirst hfull)).follows ?_
        rw [hfirst, parseNode_open kind hfull]
        refine (ih hrest).children fun l c hl => ih ?_
        obtain ⟨hinp, -⟩ := parseNode_ok hl
        exact (List.IsSuffix.length_le ⟨ser l, hinp.symm⟩).trans hrest
      · cases stack with
        | nil => cases hfirst
        | cons f fs => exact follows_leaf hv hfull
      · exact absurd hinvalid hb

/-! ### The signatures, a byte a step (R178, R187, R197, Log 18) -/

/-- What HDR and FTR have in common: a phase holding the bytes collected takes one byte more while
fewer than `n` are there, and the end of IN ends the command. -/
structure Collects (n : Nat) (phase : List Byte → Phase) : Prop where
  takes : ∀ {s : State} {buf : List Byte} {b : Byte} {rest : List Byte} {off count : Nat},
    s.cfg.valid = true → buf.length + 1 < n →
    step (s.reading (b :: rest) ⟨phase buf, off, count⟩) =
      .next (s.reading rest ⟨phase (buf ++ [b]), off + 1, count⟩)
  ends : ∀ {s : State} {buf : List Byte} {off count : Nat}, s.cfg.valid = true →
    step (s.reading [] ⟨phase buf, off, count⟩) =
      .next (failAt .unexpectedEndOfInput off (s.reading [] Parse.idle))

theorem collects_hdr : Collects headerLength .hdr where
  takes hv hlen := step_of_fetch_done hv (by simp [fetch, headerStep, inRead, State.reading, hlen, goPhase])
  ends hv := step_of_fetch_done hv rfl

theorem collects_ftr (t : Node) : Collects footerLength (.ftr t) where
  takes hv hlen := step_of_fetch_done hv (by simp [fetch, footerStep, inRead, State.reading, hlen, goPhase])
  ends hv := step_of_fetch_done hv rfl

section
variable {n : Nat} {phase : List Byte → Phase} (hp : Collects n phase) {s : State}
  (hv : s.cfg.valid = true)
include hp hv

theorem Collects.reaches {buf bs : List Byte} (rest : List Byte) {off count : Nat}
    (hlen : buf.length + bs.length < n) :
    Reaches (s.reading (bs ++ rest) ⟨phase buf, off, count⟩)
      (s.reading rest ⟨phase (buf ++ bs), off + bs.length, count⟩) := by
  induction bs generalizing buf off with
  | nil => simpa using Reaches.refl _
  | cons b bs ih =>
    rw [List.length_cons] at hlen
    have hbyte := reaches_of_reading_step
      (hp.takes (buf := buf) (b := b) (rest := bs ++ rest) (off := off) (count := count) hv (by omega))
    have hmore := ih (buf := buf ++ [b]) (off := off + 1) (by
      rw [List.length_append, List.length_singleton]
      omega)
    rw [List.append_assoc, List.singleton_append, Nat.add_assoc, Nat.add_comm 1] at hmore
    exact hbyte.trans hmore

/-- IN ends before the signature does. -/
theorem Collects.short {inp : List Byte} {off count : Nat} (hlen : inp.length < n) :
    EndsIn (s.reading inp ⟨phase [], off, count⟩)
      (failAt .unexpectedEndOfInput (off + inp.length) (s.reading [] Parse.idle)) := by
  have hall := hp.reaches hv (buf := []) (bs := inp) [] (off := off) (count := count) (by simpa using hlen)
  rw [List.append_nil] at hall
  exact hall.endsIn (endsIn_of_step (hp.ends hv))

/-- A signature is collected up to its last byte. -/
theorem Collects.butLast {sig : List Byte} (rest : List Byte) {off count : Nat} (hn : 0 < n)
    (hlen : sig.length = n) :
    ∃ buf b, sig = buf ++ [b] ∧ buf.length + 1 = n ∧
      Reaches (s.reading (sig ++ rest) ⟨phase [], off, count⟩)
        (s.reading (b :: rest) ⟨phase buf, off + buf.length, count⟩) := by
  rcases List.eq_nil_or_concat' sig with rfl | ⟨buf, b, rfl⟩
  · exact absurd hlen (Nat.ne_of_lt hn)
  · rw [List.length_append, List.length_singleton] at hlen
    refine ⟨buf, b, rfl, hlen, ?_⟩
    rw [List.append_assoc, List.singleton_append]
    exact hp.reaches hv (b :: rest) (by rw [List.length_nil]; omega)
end

section
variable {s : State} (hv : s.cfg.valid = true) {rest : List Byte} {off count : Nat}
include hv

theorem endsIn_of_badHeader {h : List Byte} {k : Nat} (hlen : h.length = headerLength)
    (hdiff : firstDiff h headerBytes = some k) :
    EndsIn (s.reading (h ++ rest) ⟨.hdr [], off, count⟩)
      (failAt .badHeaderSignature k (s.reading rest Parse.idle)) := by
  obtain ⟨buf, b, rfl, -, hreach⟩ := collects_hdr.butLast hv rest (by decide) hlen
  refine hreach.endsIn (endsIn_of_step (step_of_fetch_done hv ?_))
  simp only [fetch, State.reading, headerStep, inRead, hlen, hdiff, lt_irrefl, if_false]
  rfl

theorem reaches_of_header :
    Reaches (s.reading (headerBytes ++ rest) ⟨.hdr [], off, count⟩)
      (s.reading rest ⟨.tag [], off + headerLength, count⟩) := by
  obtain ⟨buf, b, hsig, hbuf, hreach⟩ := collects_hdr.butLast hv rest (by decide) headerBytes_length
  refine hreach.trans ?_
  rw [← hbuf, ← Nat.add_assoc]
  refine reaches_of_reading_step (step_of_fetch_done hv ?_)
  simp only [fetch, State.reading, headerStep, inRead, ← hsig, headerBytes_length, firstDiff_self,
    lt_irrefl, if_false]
  rfl

theorem endsIn_of_badFooter {t : Node} {f : List Byte} {k : Nat} (hlen : f.length = footerLength)
    (hdiff : firstDiff f footerBytes = some k) :
    EndsIn (s.reading (f ++ rest) ⟨.ftr t [], off, count⟩)
      (failAt .badFooterSignature (off + k) (s.reading rest Parse.idle)) := by
  obtain ⟨buf, b, rfl, hbuf, hreach⟩ := (collects_ftr t).butLast hv rest (by decide) hlen
  refine hreach.endsIn (endsIn_of_step (step_of_fetch_done hv ?_))
  have hoff : off + buf.length + 1 - footerLength = off := by omega
  simp only [fetch, State.reading, footerStep, inRead, hlen, hdiff, lt_irrefl, if_false, hoff]
  rfl

theorem endsIn_of_footer {t : Node} :
    EndsIn (s.reading (footerBytes ++ rest) ⟨.ftr t [], off, count⟩)
      (finish .ok { s.reading rest Parse.idle with tree := some t }) := by
  obtain ⟨buf, b, hsig, -, hreach⟩ := (collects_ftr t).butLast hv rest (by decide) footerBytes_length
  refine hreach.endsIn (endsIn_of_step (step_of_fetch_done hv ?_))
  simp only [fetch, State.reading, footerStep, inRead, ← hsig, footerBytes_length, firstDiff_self,
    lt_irrefl, if_false]
  rfl
end

/-! ### The whole command (R198) -/

/-- The state the command ends in, from the read's answer. -/
def readEnd (s : State) : Except ReadError (Node × List Byte) → State
  | .error e => failAt e.code e.offset (s.reading e.inp Parse.idle)
  | .ok (t, rest) => finish .ok { s.reading rest Parse.idle with tree := some t }

theorem exec_deserialize_eq_readEnd (s : State) : exec .deserialize s =
    .next (readEnd (startDeserialize s) (readContainer s.cfg.nodeCapacity s.inp)) := by
  cases h : readContainer s.cfg.nodeCapacity s.inp with
  | error e => exact execDeserialize_of_error h
  | ok r => exact execDeserialize_of_ok h

/-- After HEADER the machine does what the recursion makes of the bytes left. -/
theorem follows_body {s : State} (hv : s.cfg.valid = true) (body : List Byte) :
    Follows s [] (s.reading (headerBytes ++ body) ⟨.hdr [], 0, 0⟩)
      (parseNode s.cfg.nodeCapacity body.length true ⟨body, headerLength, 0⟩) :=
  (reaches_of_header hv).follows (follows_parseNode hv (Nat.le_refl body.length))

theorem reaches_of_body {s : State} (hv : s.cfg.valid = true) {body : List Byte} {t : Node} {c : Cursor}
    (hbody : parseNode s.cfg.nodeCapacity body.length true ⟨body, headerLength, 0⟩ = .ok (t, c)) :
    Reaches (s.reading (headerBytes ++ body) ⟨.hdr [], 0, 0⟩)
      (s.reading c.inp ⟨.ftr t [], c.off, c.count⟩) := by
  have hfollows := follows_body hv body
  rwa [hbody] at hfollows

/-- The machine ends as the read does, whichever way it goes. -/
theorem endsIn_of_reads {s : State} (hv : s.cfg.valid = true) {inp : List Byte}
    {r : Except ReadError (Node × List Byte)} (h : Reads s.cfg.nodeCapacity inp r) :
    EndsIn (s.reading inp ⟨.hdr [], 0, 0⟩) (readEnd s r) := by
  cases h with
  | shortHeader hlen =>
    have hshort := collects_hdr.short hv (off := 0) (count := 0) hlen
    rwa [Nat.zero_add] at hshort
  | badHeader hlen hdiff => exact endsIn_of_badHeader hv hlen hdiff
  | @badBody body e hbody =>
    have hfollows := follows_body hv body
    rwa [hbody] at hfollows
  | shortFooter hbody hlen => exact (reaches_of_body hv hbody).endsIn ((collects_ftr _).short hv hlen)
  | badFooter hbody hlen hdiff => exact (reaches_of_body hv hbody).endsIn (endsIn_of_badFooter hv hlen hdiff)
  | good hbody => exact (reaches_of_body hv hbody).endsIn (endsIn_of_footer hv)

/-- Settles O28: the machine, phase by phase, comes to the end of the read. -/
theorem machineAgreesWithRecursion : Obligations.MachineAgreesWithRecursion := by
  intro s hv
  rw [exec_deserialize_eq_readEnd]
  exact endsIn_of_reads (s := startDeserialize s) hv (reads_readContainer s.cfg.nodeCapacity s.inp)

end Sys2Proof.Machine
end

section
/-! PROOFS for the statements of 60_exceptions.md: the codes each command ends with, that every command and
every step answers, what ILLEGAL changes. -/

namespace Sys2Proof.Machine

/-! ### Which code ends which command (60_exceptions.md R213) -/

/-- Some state with admissible parameters from which the instruction ends with the code. -/
def MeetsCode (i : Instr) (c : Code) : Prop :=
  ∃ s u : State, s.cfg.valid = true ∧ exec i s = .next u ∧ u.code = c

theorem meetsCode_of_exec {i : Instr} {s u : State} (hv : s.cfg.valid = true) (h : exec i s = .next u) :
    MeetsCode i u.code := ⟨s, u, hv, h, rfl⟩

/-- The recommended parameters are admissible (00_scope.md R7). -/
theorem recommended_valid : Config.recommended.valid = true := by decide

theorem clear_meets_ok : MeetsCode .clear .ok := by
  obtain ⟨u, hu, -, -, -, hok, -⟩ := clearEmptiesTheStores.2 State.reset
  exact ⟨_, u, recommended_valid, hu, hok⟩

theorem loadLeaf_meets_ok (sym : Byte) : MeetsCode (.loadLeaf sym) .ok := by
  obtain ⟨-, happends, -⟩ := loadLeafAppendsOrIsFull sym State.reset
  exact meetsCode_of_exec recommended_valid (happends (by decide))

/-- V-L6: CAND_CAPACITY = 2, and two candidates. -/
theorem loadLeaf_meets_capacityExceeded (sym : Byte) : MeetsCode (.loadLeaf sym) .capacityExceeded := by
  obtain ⟨-, -, hfull⟩ := loadLeafAppendsOrIsFull sym
    { State.reset with cfg := ⟨8, some 2, some 3⟩, cand := [.leaf 0x61#8 5, .leaf 0x62#8 2] }
  exact meetsCode_of_exec (by decide) (hfull rfl)

theorem build_meets_ok : MeetsCode .build .ok := by
  obtain ⟨hone, -⟩ := oneSymbolTree { State.reset with cand := [.leaf 0x61#8 5] } 0x61#8 5 rfl
  exact meetsCode_of_exec recommended_valid hone

theorem build_meets_emptyFrequencyTable : MeetsCode .build .emptyFrequencyTable := by
  obtain ⟨hempty, -⟩ := buildFollowsTheRounds.2 State.reset
  exact meetsCode_of_exec recommended_valid (hempty rfl)

theorem exec_build_of_error {s : State} {c : Code} (h : buildTree (weightLimit s.cfg) s.cand = .error c) :
    exec .build s = .next (afterBuild (.error c) s) := by
  rw [exec_build, h]

/-- Three weights of half the limit: the first pair's sum is 2^64. -/
theorem build_meets_weightOverflow : MeetsCode .build .weightOverflow :=
  meetsCode_of_exec recommended_valid (exec_build_of_error (c := .weightOverflow)
    (s := { State.reset with
      cand := [.leaf 0x61#8 (2 ^ 63), .leaf 0x62#8 (2 ^ 63), .leaf 0x63#8 (2 ^ 63)] }) rfl)

theorem derive_meets_ok : MeetsCode .derive .ok := by
  obtain ⟨hderives, -⟩ := deriveRecordsThePaths.2
    { State.reset with tree := some (.root (.leaf 0x61#8 5) (.leaf 0x62#8 2)) }
  obtain ⟨m, hm, -⟩ := hderives _ rfl
  exact meetsCode_of_exec recommended_valid hm

theorem derive_meets_noTree : MeetsCode .derive .noTree := by
  obtain ⟨-, hnone⟩ := deriveRecordsThePaths.2 State.reset
  exact meetsCode_of_exec recommended_valid (hnone rfl)

theorem serialize_meets_ok : MeetsCode .serialize .ok :=
  meetsCode_of_exec recommended_valid (exec_serialize_of_tree
    (s := { State.reset with tree := some (.root (.leaf 0x61#8 5) (.leaf 0x62#8 2)) }) rfl)

theorem serialize_meets_noTree : MeetsCode .serialize .noTree :=
  meetsCode_of_exec recommended_valid (exec_serialize_of_none (s := State.reset) rfl)

/-- The tree of three nodes that the containers below carry. -/
def twoLeafTree : Node := .root (.leaf 0x61#8 0) (.leaf 0x62#8 0)

theorem twoLeafTree_fits_reset (inp : List Byte) :
    fitsCapacity twoLeafTree { State.reset with inp := inp } := by
  rintro n ⟨⟩
  decide

theorem deserialize_meets_ok : MeetsCode .deserialize .ok := by
  obtain ⟨hrebuilds, -⟩ := deserializeRebuildsTheTree { State.reset with inp := container twoLeafTree }
    twoLeafTree [] rfl (twoLeafTree_fits_reset _) (List.append_nil _).symm
  exact meetsCode_of_exec recommended_valid hrebuilds

theorem deserialize_meets_unexpectedEndOfInput : MeetsCode .deserialize .unexpectedEndOfInput :=
  meetsCode_of_exec recommended_valid (shortHeaderFails State.reset (by decide))

/-- HEADER with its last byte changed. -/
theorem deserialize_meets_badHeaderSignature : MeetsCode .deserialize .badHeaderSignature := by
  obtain ⟨k, x, y, -, -, -, -, -, hfails⟩ := badHeaderFails
    { State.reset with inp := headerBytes.set 29 0x00#8 } (headerBytes.set 29 0x00#8) []
    (List.append_nil _).symm rfl (by decide)
  exact meetsCode_of_exec recommended_valid hfails

/-- FOOTER with its last byte changed. -/
theorem deserialize_meets_badFooterSignature : MeetsCode .deserialize .badFooterSignature := by
  obtain ⟨-, hbad⟩ := badFooterFails
    { State.reset with inp := headerBytes ++ ser twoLeafTree ++ footerBytes.set 28 0x00#8 }
    twoLeafTree (footerBytes.set 28 0x00#8) [] rfl (twoLeafTree_fits_reset _)
  obtain ⟨k, x, y, -, -, -, -, -, hfails⟩ := hbad (List.append_nil _).symm rfl (by decide)
  exact meetsCode_of_exec recommended_valid hfails

theorem deserialize_meets_invalidNodeTag : MeetsCode .deserialize .invalidNodeTag :=
  meetsCode_of_exec recommended_valid (firstTagMustBeRoot
    { State.reset with inp := headerBytes ++ [0x00#8] } 0x00#8 [] rfl (by decide))

/-- V-D15: with NODE_CAPACITY = 3 the tag at offset 34 would begin a fourth node. -/
theorem deserialize_meets_capacityExceeded : MeetsCode .deserialize .capacityExceeded :=
  meetsCode_of_exec (by decide) (exec_deserialize_of_reads_error
    (s := { State.reset with
      cfg := ⟨8, some 2, some 3⟩
      inp := headerBytes ++ [0xff#8, 0x00#8, 0x01#8, 0x61#8, 0x01#8] })
    (e := ⟨.capacityExceeded, 34, []⟩) rfl (.badBody rfl))

/-- ILLEGAL does nothing but end (60_exceptions.md R217). -/
theorem exec_illegal (w : CmdWord) (s : State) : exec (.illegal w) s = .next (ended .illegalCommand s) := rfl

theorem illegal_meets_illegalCommand (w : CmdWord) : MeetsCode (.illegal w) .illegalCommand :=
  meetsCode_of_exec recommended_valid (exec_illegal w State.reset)

/-- No code is listed for a command in vain. -/
theorem meetsCode_of_mem_commandCodes {i : Instr} {cs : List Code} (hi : commandCodes i = some cs) :
    ∀ c ∈ cs, MeetsCode i c := by
  cases i with
  | clear =>
    cases hi
    simpa using clear_meets_ok
  | loadLeaf sym =>
    cases hi
    simpa using ⟨loadLeaf_meets_ok sym, loadLeaf_meets_capacityExceeded sym⟩
  | build =>
    cases hi
    simpa using ⟨build_meets_ok, build_meets_emptyFrequencyTable, build_meets_weightOverflow⟩
  | derive =>
    cases hi
    simpa using ⟨derive_meets_ok, derive_meets_noTree⟩
  | serialize =>
    cases hi
    simpa using ⟨serialize_meets_ok, serialize_meets_noTree⟩
  | deserialize =>
    cases hi
    simpa using ⟨deserialize_meets_ok, deserialize_meets_unexpectedEndOfInput,
      deserialize_meets_badHeaderSignature, deserialize_meets_badFooterSignature,
      deserialize_meets_invalidNodeTag, deserialize_meets_capacityExceeded⟩
  | illegal w =>
    cases hi
    simpa using illegal_meets_illegalCommand w
  | tagRoot => cases hi
  | tagInternal => cases hi
  | tagLeaf => cases hi
  | tagInvalid first b => cases hi

/-- Settles O41: `finish` writes one of the command's own codes, and a state is at hand for each. -/
theorem commandsEndWithTheirCodes : Obligations.CommandsEndWithTheirCodes := by
  refine ⟨rfl, fun _ => rfl, rfl, rfl, rfl, rfl, fun _ => rfl, fun i cs hi => ⟨fun s u h => ?_, ?_⟩⟩
  · obtain ⟨c, hc, v, rfl, -, -⟩ := exec_command_next hi h
    rwa [finish_code]
  · exact meetsCode_of_mem_commandCodes hi

/-! ### Every command and every step answers (60_exceptions.md R227) -/

theorem exec_command_answers {i : Instr} (hi : commandCodes i ≠ none) (s : State) :
    ∃ t, exec i s = .next t := by
  obtain ⟨cs, hcs⟩ := Option.ne_none_iff_exists'.1 hi
  obtain ⟨c, -, u, h, -, -⟩ := exec_endsWith hcs s
  exact ⟨_, h⟩

/-- A tag answers wherever the machine waits for one. -/
theorem takeTag_answers (place : List Frame → Option Phase) {s : State} {stack : List Frame}
    (hs : s.parse.phase = .tag stack) : ∃ t, takeTag place s = .next t := by
  cases hp : place stack with
  | none => exact ⟨_, takeTag_of_invalid hs hp⟩
  | some p =>
    by_cases hfull : s.cfg.nodeCapacity = some s.parse.count
    · exact ⟨_, takeTag_of_full hs hp hfull⟩
    · exact ⟨_, takeTag_of_room hs hp hfull⟩

/-- What `fetch` finds to run is a command, or a tag where the machine waits for one. -/
theorem fetch_run_isCommand_or_tag {s u : State} {i : Instr} (h : fetch s = .run i u) :
    commandCodes i ≠ none ∨ ∃ stack, u.parse.phase = .tag stack := by
  rcases fetch_cases s with ⟨-, -, hf⟩ | ⟨a, rest, -, -, hf⟩ | ⟨buf, -, hf⟩ | ⟨stack, -, -, hf⟩ |
    ⟨stack, b, rest, hp, -, hf⟩ | ⟨top, below, -, hf⟩ | ⟨n, buf, -, hf⟩ <;> rw [hf] at h
  · cases h
  · obtain ⟨-, w, rfl⟩ := hostAct_run h
    exact .inl (decodeCommand_isCommand w)
  · cases h
  · cases h
  · cases h
    exact .inr ⟨stack, hp⟩
  · cases h
  · cases h

theorem exec_fetched_answers {s u : State} {i : Instr} (h : fetch s = .run i u) :
    ∃ t, exec i u = .next t := by
  by_cases hi : commandCodes i = none
  · obtain ⟨stack, hs⟩ := (fetch_run_isCommand_or_tag h).resolve_left (not_not_intro hi)
    obtain ⟨place, hplace⟩ := exec_tag hi u
    rw [hplace]
    exact takeTag_answers place hs
  · exact exec_command_answers hi u

theorem step_of_fetch_run {s u : State} {i : Instr} (hv : s.cfg.valid = true) (h : fetch s = .run i u) :
    step s = exec i u := by
  simp only [step, hv, if_true, h]

/-- Settles O42: commands always end, and a fetched tag meets the phase it needs. -/
theorem everyStepAnswers : Obligations.EveryStepAnswers := by
  refine ⟨fun i s hi => exec_command_answers hi s, fun s hv => ?_⟩
  cases hf : fetch s with
  | done t => exact ⟨t, step_of_fetch_done hv hf⟩
  | run i u =>
    rw [step_of_fetch_run hv hf]
    exact exec_fetched_answers hf

/-! ### ILLEGAL (60_exceptions.md R217) -/

/-- Settles O40: `finish` is all that the command does. -/
theorem illegalChangesOnlyTheCode : Obligations.IllegalChangesOnlyTheCode :=
  ⟨rfl, exec_illegal⟩

end Sys2Proof.Machine
end

section
/-! PROOFS for the statements of 70_reset_and_hazards.md: what a host action does when no command runs and
while one does, and the values reset leaves. -/

namespace Sys2Proof.Machine

/-! ### Host actions (70_reset_and_hazards.md R247, R252, R259) -/

/-- Settles O47: idle with nothing pending, `fetch` finds the state itself. -/
theorem idleIsFinal : Obligations.IdleIsFinal :=
  fun _ hv hp hh => step_of_fetch_done hv (fetch_of_host_nil hp hh)

/-- Settles O49: BUSY is what a CMD write asks for first. -/
theorem busyDropsTheCommand : Obligations.BusyDropsTheCommand :=
  fun _ _ hb => if_pos hb

/-- What a write to a register other than CMD stores, both registers in one record (10_state.md R30). -/
theorem writeReg_eq (s : State) (reg val : Nat) : writeReg s reg val =
    { s with
      weight := if reg = 1 then val % 2 ^ s.cfg.weightBits else s.weight
      mapSym := if reg = 5 then BitVec.ofNat 8 val else s.mapSym } := by
  rcases writeReg_cases s reg val with ⟨rfl, h⟩ | ⟨rfl, h⟩ | ⟨h1, h5, h⟩
  · exact h
  · exact h
  · rw [h, if_neg h1, if_neg h5]

/-- With no command running, a host action that is done at once is the whole step, taken off the list. -/
theorem step_of_hostAct_done {s t : State} {a : HostAct} {rest : List HostAct} (hv : s.cfg.valid = true)
    (hp : s.parse.phase = .idle) (hh : s.host = a :: rest)
    (ha : hostAct a { s with host := rest } = .done t) : step s = .next t :=
  step_of_fetch_done hv ((fetch_of_host_cons hp hh).trans ha)

/-- Settles O48: every action named but a register write is `hostAct`'s own answer; a register write is
`writeReg`'s. -/
theorem hostActionsBetweenCommands : Obligations.HostActionsBetweenCommands := by
  intro s a rest hv hp hh
  have hstep {t : State} := step_of_hostAct_done (t := t) hv hp hh
  refine ⟨?write, ?read, ?replaceIn, ?extendIn, ?drainOut, ?replaceOut, ?reset⟩
  case write =>
    rintro reg val rfl hreg
    rw [step_of_write hv hp hh hreg, writeReg_eq]
  case reset => exact fun ha => hstep (ha ▸ rfl)
  all_goals exact fun _ ha => hstep (ha ▸ rfl)

/-! ### Reset (70_reset_and_hazards.md R240) -/

@[simp] theorem mapEntry_assertReset (s : State) (sym : Byte) : mapEntry (assertReset s) sym = none := rfl

@[simp] theorem status_assertReset (s : State) : status (assertReset s) = 0#32 := by
  simp [status, busy, treeValid, codeNumber, Parse.idle]

@[simp] theorem mapInfo_assertReset (s : State) : mapInfo (assertReset s) = 0 := rfl

@[simp] theorem mapBits_assertReset (s : State) (k : Nat) : mapBits (assertReset s) k = 0#32 := rfl

@[simp] theorem errOffsetRegister_assertReset (s : State) : errOffsetRegister (assertReset s) = 0 :=
  errOffsetRegister_of_lt (s := assertReset s) (by simp)

@[simp] theorem candCount_assertReset (s : State) : candCount (assertReset s) = 0 :=
  candCount_of_lt (s := assertReset s) (by simp)

/-- Every register reads 0 after reset. -/
theorem readReg_assertReset (s : State) (reg : Nat) : readReg (assertReset s) reg = 0 := by
  unfold readReg
  split <;> simp

/-- Settles O58: reset writes each value, and the registers show nothing else. -/
theorem resetValues : Obligations.ResetValues := fun s =>
  ⟨rfl, rfl, rfl, rfl, mapEntry_assertReset s, rfl, rfl, rfl, rfl, rfl, rfl, rfl, rfl,
    readReg_assertReset s⟩

end Sys2Proof.Machine
end

section
/-! PROOFS for the statements on the encodings as a whole, the decoders and the encoder as inverses of each
other, and on the state after reset. -/

namespace Sys2Proof.Machine

/-! ### Command words (30_encoding.md R82, R83) -/

/-- `illegalWord` excludes LOAD_LEAF's opcode where R83 lists the opcodes without operand; both say which
words the opcode map leaves to ILLEGAL. -/
theorem illegalWord_iff_decodeCommand (w : CmdWord) :
    illegalWord w = true ↔ decodeCommand w = .illegal w := by
  have hopc := mem_noOperandOpcodes_iff (opcField w)
  have hword : illegalWord w = true ↔
      (opcField w = 0x00#8 ∨ 7 ≤ (opcField w).toNat) ∨ opcField w ≠ 0x02#8 ∧ symField w ≠ 0x00#8 := by
    simp [illegalWord]
  rw [hword, decodeCommand_eq_illegal_iff]
  by_cases hload : opcField w = 0x02#8
  · simp [hload]
  · tauto

theorem commandWord_of_fields {w : CmdWord} {sym opc : Byte} (hsym : symField w = sym)
    (hopc : opcField w = opc) : commandWord sym opc = w := by
  rw [← hsym, ← hopc, commandWord_fields]

/-- Each row of the opcode map fixes both fields of its word, or keeps the one it does not fix. -/
theorem encode_decodeCommand (w : CmdWord) : encode (decodeCommand w) = .word w := by
  rw [decodeCommand_eq_of_fields]
  split_ifs with hclear hload hbuild hderive hserialize hdeserialize
  · exact congrArg _ (commandWord_of_fields hclear.1 hclear.2)
  · exact congrArg _ (commandWord_of_fields rfl hload)
  · exact congrArg _ (commandWord_of_fields hbuild.1 hbuild.2)
  · exact congrArg _ (commandWord_of_fields hderive.1 hderive.2)
  · exact congrArg _ (commandWord_of_fields hserialize.1 hserialize.2)
  · exact congrArg _ (commandWord_of_fields hdeserialize.1 hdeserialize.2)
  · rfl

/-! ### Wire tags (30_encoding.md R86, R92) -/

theorem invalidTag_iff_decodeTag (first : Bool) (b : Byte) :
    invalidTag first b = true ↔ decodeTag first b = .tagInvalid first b := by
  cases first with
  | true => by_cases hroot : b = 0xff#8 <;> simp [invalidTag, decodeTag, tagRootByte, hroot]
  | false =>
    by_cases hinternal : b = 0x00#8
    · simp [invalidTag, decodeTag, tagInternalByte, hinternal]
    · by_cases hleaf : b = 0x01#8 <;>
        simp [invalidTag, decodeTag, tagInternalByte, tagLeafByte, hinternal, hleaf]

theorem encode_decodeTag (first : Bool) (b : Byte) : encode (decodeTag first b) = .tag first b := by
  unfold decodeTag
  split_ifs with hfirst hroot hinternal hleaf
  · rw [hfirst, hroot, encode]
  · rw [hfirst, encode]
  · rw [Bool.eq_false_of_not_eq_true hfirst, hinternal, encode]
  · rw [Bool.eq_false_of_not_eq_true hfirst, hleaf, encode]
  · rw [Bool.eq_false_of_not_eq_true hfirst, encode]

/-! ### Both kinds -/

theorem encode_decodeUnit (u : CodeUnit) : encode (decodeUnit u) = u := by
  cases u with
  | word w => exact encode_decodeCommand w
  | tag first b => exact encode_decodeTag first b

/-- The well-formed instructions are those the decoders give back from their encoding. -/
theorem wellFormed_iff_decodeUnit_encode (i : Instr) :
    i.wellFormed = true ↔ decodeUnit (encode i) = i := by
  cases i with
  | illegal w => exact illegalWord_iff_decodeCommand w
  | tagInvalid first b => exact invalidTag_iff_decodeTag first b
  | loadLeaf sym => exact iff_of_true rfl (decodeCommand_loadLeafWord sym)
  | clear => exact iff_of_true rfl rfl
  | build => exact iff_of_true rfl rfl
  | derive => exact iff_of_true rfl rfl
  | serialize => exact iff_of_true rfl rfl
  | deserialize => exact iff_of_true rfl rfl
  | tagRoot => exact iff_of_true rfl rfl
  | tagInternal => exact iff_of_true rfl rfl
  | tagLeaf => exact iff_of_true rfl rfl

/-- Settles O1: well-formedness is that very round trip. -/
theorem decodeOfEncode : Obligations.DecodeOfEncode := fun i => (wellFormed_iff_decodeUnit_encode i).1

/-- Settles O2: a unit is the encoding of what it decodes to, so what it decodes to makes the round trip and
is well formed. -/
theorem encodeOfDecode : Obligations.EncodeOfDecode := fun u =>
  ⟨(wellFormed_iff_decodeUnit_encode _).2 (congrArg decodeUnit (encode_decodeUnit u)), encode_decodeUnit u⟩

/-- Settles O4: each listed word or tag is the encoding of the instruction listed for it, and that
instruction is well formed. -/
theorem listedWordsDecode : Obligations.ListedWordsDecode :=
  ⟨decodeOfEncode .clear rfl, decodeOfEncode (.loadLeaf 0x61#8) rfl, decodeOfEncode (.loadLeaf 0x00#8) rfl,
    decodeOfEncode (.loadLeaf 0xff#8) rfl, decodeOfEncode .build rfl, decodeOfEncode .derive rfl,
    decodeOfEncode .serialize rfl, decodeOfEncode .deserialize rfl,
    decodeOfEncode (.illegal 0x0103#16) rfl, decodeOfEncode .tagRoot rfl, decodeOfEncode .tagInternal rfl,
    decodeOfEncode .tagLeaf rfl, decodeOfEncode (.tagInvalid false 0x02#8) rfl,
    decodeOfEncode (.tagInvalid false 0xff#8) rfl, decodeOfEncode (.tagInvalid true 0x00#8) rfl⟩

/-! ### The state after reset (10_state.md section 6) -/

/-- Settles O52: the state after reset is its own reset, and a reset meets the invariant from every state. -/
theorem resetMeetsTheInvariant : Obligations.ResetMeetsTheInvariant := assertReset_inv State.reset

end Sys2Proof.Machine
end
